-- ==== Sys2Proof/Word.lean ====
section
/-!
DEFINITION. The word types of ENC: everything on its data path is an unsigned byte or a nibble (spec R9, R10).
-/

namespace Sys2Proof

/-- A byte: 8 bits, unsigned, bit 7 the most significant (R10). -/
abbrev Byte := BitVec 8

/-- A nibble: 4 bits (R10, R15). -/
abbrev Nibble := BitVec 4

end Sys2Proof
end

