-- ==== Sys2Proof/Config.lean ====
section
/-!
DEFINITION. What an implementation fixes (spec R7: the whole parameter table, a record fixed for a run) and the values
the spec leaves open. The record is plain data, so every claim can quantify over it; the defaults of R7 are
`Config.default`. The two opaque constants are the values nothing in the spec fixes: no proof can learn them.
-/

namespace Sys2Proof

/-- What WRITESTRING does after a failed character (R7 `WS_ON_FAIL`, R152; 92_eei_decisions.md D15: OPEN). -/
inductive WsOnFail where
  /-- No event follows the failed `TX`. -/
  | stop
  /-- Every character is attempted (the spec's `continue`). -/
  | goOn
  deriving DecidableEq, Repr, Inhabited

/-- An answer of the transport adapter to one `transmit` call (R176). -/
inductive TxReply where
  /-- Success: the whole payload reached the expander, in order (R48, R177). -/
  | ok
  /-- Failure. `reached` is how many payload bytes the expander had received when the call failed; R48 asks for any
  prefix, none and all included, so any number is admitted and one past the payload's length means all of it. -/
  | fail (reached : Nat)
  deriving DecidableEq, Repr, Inhabited

/-- The configuration record of R7, in the table's order. `busFreqHz` and `nCols` are read by no operation rule. -/
structure Config where
  /-- `SLAVE_ADDR_W`: byte 0 of every frame (R65). -/
  slaveAddrW : Byte
  /-- `BUS_FREQ_HZ`: handed by the host to the transport's `initialize` (R194); no operation reads it. -/
  busFreqHz : Nat
  /-- `NROWS`: number of entries of the row address table. -/
  nRows : Nat
  /-- `NCOLS`: columns per row; no rule reads it, a column is never checked (R142). -/
  nCols : Nat
  /-- `ROW_BASE[0..NROWS-1]`: DDRAM base address of each row (R42). -/
  rowBase : List Byte
  /-- `RS_MASK`: register-select line of the packed byte (R60). -/
  rsMask : Byte
  /-- `EN_MASK`: enable line of the packed byte (R60). -/
  enMask : Byte
  /-- `BL_MASK`: backlight line of the packed byte (R60). -/
  blMask : Byte
  /-- `CMD_START_INIT` (R112). -/
  cmdStartInit : Byte
  /-- `CMD_4BIT`: its high nibble switches the controller to 4-bit mode (R113). -/
  cmd4Bit : Byte
  /-- `CMD_FUNCTION_SET` (R114). -/
  cmdFunctionSet : Byte
  /-- `CMD_DISPLAY_CONTROL`: the opcode the flags are OR-ed with (R130). -/
  cmdDisplayControl : Byte
  /-- `D_MASK`: DISPLAY field of DCF (R22). -/
  dMask : Byte
  /-- `C_MASK`: CURSOR field of DCF (R22). -/
  cMask : Byte
  /-- `B_MASK`: BLINK field of DCF (R22). -/
  bMask : Byte
  /-- `CMD_CLEAR` (R150). -/
  cmdClear : Byte
  /-- `CMD_ENTRY_MODE` (R117). -/
  cmdEntryMode : Byte
  /-- `CMD_SET_DDRAM`: the opcode the DDRAM address is OR-ed with (R140). -/
  cmdSetDdram : Byte
  /-- `T_POWERON`, INIT step 1 (R111); this and the delays below are in milliseconds. -/
  tPowerOn : Nat
  /-- `T_INIT_1`, after the first START_INIT (R112). -/
  tInit1 : Nat
  /-- `T_INIT_2`, after the second START_INIT (R112). -/
  tInit2 : Nat
  /-- `T_INIT_3`, after the third START_INIT (R112). -/
  tInit3 : Nat
  /-- `T_INIT_4BIT`, INIT step 3 (R113). -/
  tInit4Bit : Nat
  /-- `T_FUNCSET`, INIT step 4 (R114). -/
  tFuncSet : Nat
  /-- `T_INIT_DOFF`, INIT step 5 (R115). -/
  tInitDoff : Nat
  /-- `T_INIT_CLEAR`, INIT step 6 (R116). -/
  tInitClear : Nat
  /-- `T_ENTRY`, INIT step 7 (R117). -/
  tEntry : Nat
  /-- `T_INIT_DON`, INIT step 8 (R118). -/
  tInitDon : Nat
  /-- `T_TOGGLE`, after each toggle operation (R130). -/
  tToggle : Nat
  /-- `T_CLEAR`, after CLEAR (R150). -/
  tClear : Nat
  /-- `WS_ON_FAIL` (R152). -/
  wsOnFail : WsOnFail
  deriving DecidableEq, Repr

/-- The answer to the `n`-th `Tx` call of a run for which the state lists no answer: the oracle's, and R176 says that a
model constrains it in no way. Free value: no body, so nothing can be proved of it (notes/assumptions/2.md). -/
opaque Config.freeReply : Nat → TxReply

/-- The value of `WS_ON_FAIL` in the machine `Config.default` describes: R7 gives it as OPEN, with no default. Free
value: no body (notes/assumptions/3.md). -/
opaque Config.freeWsOnFail : WsOnFail

/-- The defaults of R7's table. The values of origin `GK` (the three control-line masks, the three DCF masks and every
command but `CMD_START_INIT`) are the spec's own `[from general knowledge, not in source]` defaults
(93_implementation_defined.md G1, G3). UNVERIFIED, unsafe for a claim about one concrete byte: notes/assumptions/4.md. -/
def Config.default : Config where
  slaveAddrW := 0x4E#8
  busFreqHz := 100000
  nRows := 4
  nCols := 20
  rowBase := [0x00#8, 0x40#8, 0x14#8, 0x54#8]
  rsMask := 0x01#8
  enMask := 0x04#8
  blMask := 0x08#8
  cmdStartInit := 0x30#8
  cmd4Bit := 0x20#8
  cmdFunctionSet := 0x28#8
  cmdDisplayControl := 0x08#8
  dMask := 0x04#8
  cMask := 0x02#8
  bMask := 0x01#8
  cmdClear := 0x01#8
  cmdEntryMode := 0x06#8
  cmdSetDdram := 0x80#8
  tPowerOn := 50
  tInit1 := 6
  tInit2 := 2
  tInit3 := 11
  tInit4Bit := 0
  tFuncSet := 2
  tInitDoff := 0
  tInitClear := 4
  tEntry := 2
  tInitDon := 0
  tToggle := 4
  tClear := 2
  wsOnFail := Config.freeWsOnFail

end Sys2Proof
end

