-- ==== Sys2Proof/Syntax.lean ====
section
/-!
DEFINITION. The nine operations of ENC (spec R72), one constructor per row of spec/opcode_table.json. The characters of
WRITESTRING stand as a list; the count `L` of the encoding is its length (R77), and WellFormed.lean bounds it.
-/

namespace Sys2Proof

/-- The two-valued operand `state` of the toggle operations (R14): never a number inside the model. -/
inductive OnOff where
  | on
  | off
  deriving DecidableEq, Repr

/-- The operations a host can issue (R72). Every operand is an immediate carried by the operation (R20). -/
inductive Instr where
  /-- `INIT`: run the initialization sequence (R110). -/
  | init
  /-- `CLEAR`: clear the display (R150). -/
  | clear
  /-- `SETCURSOR row, col`: position the controller's DDRAM address (R140). -/
  | setCursor (row col : Byte)
  /-- `SENDDATA v`: send a data byte (R93). -/
  | sendData (v : Byte)
  /-- `SENDCMD v`: send a command byte (R92). -/
  | sendCmd (v : Byte)
  /-- `SETDISPLAY s`: switch the whole display on or off (R131). -/
  | setDisplay (s : OnOff)
  /-- `SETCURSORDISPLAY s`: switch the cursor on or off (R132). -/
  | setCursorDisplay (s : OnOff)
  /-- `SETCURSORBLINK s`: switch cursor blinking on or off (R133). -/
  | setCursorBlink (s : OnOff)
  /-- `WRITESTRING L, ch_0 .. ch_{L-1}`: send a string, one data byte per character (R152). -/
  | writeString (chars : List Byte)
  deriving DecidableEq, Repr

end Sys2Proof
end

