-- ==== Sys2Proof/WellFormed.lean ====
section
/-!
DEFINITION. Well-formedness: of an operation (the one bound its encoding sets, spec R77) and of a configuration record
(spec R8 (a) to (d); item (e), that every delay is a natural number, is the fields' type).
-/

namespace Sys2Proof

/-- An operation the byte encoding can carry: `L` is one byte, so a string has at most 255 characters (R77, R152).
Every other operand value is legal (R92, R93, R140). -/
def Instr.wf : Instr → Bool
  | .writeString chars => decide (chars.length ≤ 255)
  | .init | .clear | .setCursor _ _ | .sendData _ | .sendCmd _ => true
  | .setDisplay _ | .setCursorDisplay _ | .setCursorBlink _ => true

/-- Exactly one bit of the byte is set. -/
def oneBit (m : Byte) : Bool :=
  [0x01#8, 0x02#8, 0x04#8, 0x08#8, 0x10#8, 0x20#8, 0x40#8, 0x80#8].contains m

/-- Three pairwise different single bits. -/
def threeBits (a b c : Byte) : Bool :=
  oneBit a && oneBit b && oneBit c && a != b && a != c && b != c

/-- R8 (a): the control-line masks are three different single bits within 0x0F. -/
def Config.controlMasksOk (c : Config) : Bool :=
  threeBits c.rsMask c.enMask c.blMask && (c.rsMask ||| c.enMask ||| c.blMask) &&& 0xF0#8 == 0x00#8

/-- R8 (b): the DCF masks are three different single bits. -/
def Config.flagMasksOk (c : Config) : Bool :=
  threeBits c.dMask c.cMask c.bMask

/-- R8 (c): the DISPLAY_CONTROL opcode shares no bit with the flags. -/
def Config.opcodeDisjoint (c : Config) : Bool :=
  c.cmdDisplayControl &&& (c.dMask ||| c.cMask ||| c.bMask) == 0

/-- R8 (d): one to four rows, one table entry per row, one to twenty columns. -/
def Config.geometryOk (c : Config) : Bool :=
  decide (1 ≤ c.nRows) && decide (c.nRows ≤ 4) && c.rowBase.length == c.nRows
    && decide (1 ≤ c.nCols) && decide (c.nCols ≤ 20)

/-- R8: the record is admitted; a model refuses any other. -/
def Config.wf (c : Config) : Bool :=
  c.controlMasksOk && c.flagMasksOk && c.opcodeDisjoint && c.geometryOk

end Sys2Proof
end

