-- ==== Sys2Proof/Decode.lean ====
section
/-!
DEFINITION. The operation encoding of spec R73 to R77: the decoder, total on every byte list and refusing by name, and
after it the encoder written from the same tables.
-/

namespace Sys2Proof

/-- Why operation bytes match no row of the opcode table (R76). -/
inductive Illegal where
  /-- R76 (a): an opcode byte in 0x09..0xFF. -/
  | undefinedOpcode (opcode : Byte)
  /-- R76 (b): a format `S` operand byte with a bit of 7..1 set. -/
  | reservedStateBits (opcode operand : Byte)
  deriving DecidableEq, Repr

/-- What the decoder reads at the head of a byte list. -/
inductive Decoded where
  /-- A legal operation, and the bytes after it. -/
  | instr (i : Instr) (rest : List Byte)
  /-- An illegal encoding, and the bytes after those examined (R76: one in case (a), two in case (b)). -/
  | illegal (why : Illegal) (rest : List Byte)
  /-- The bytes so far begin an operation whose length (R77) they do not reach. -/
  | incomplete
  deriving DecidableEq, Repr

/-- Format `B` (R73): one byte `v` after the opcode. -/
def decodeB (mk : Byte → Instr) : List Byte → Decoded
  | [] => .incomplete
  | v :: rest => .instr (mk v) rest

/-- Format `S` (R73, R75): bit 0 of the byte after the opcode is the state, 1 = ON; bits 7..1 must be zero (R76 (b)). -/
def decodeS (opcode : Byte) (mk : OnOff → Instr) : List Byte → Decoded
  | [] => .incomplete
  | b :: rest =>
    if b &&& 0xFE#8 = 0x00#8 then .instr (mk (if b &&& 0x01#8 = 0x00#8 then .off else .on)) rest
    else .illegal (.reservedStateBits opcode b) rest

/-- Format `RC` (R73): `row`, then `col`. -/
def decodeRC (mk : Byte → Byte → Instr) : List Byte → Decoded
  | row :: col :: rest => .instr (mk row col) rest
  | _ => .incomplete

/-- Format `V` (R73, R77): the count `L`, then exactly `L` characters, whatever their values. -/
def decodeV (mk : List Byte → Instr) : List Byte → Decoded
  | [] => .incomplete
  | len :: rest =>
    if rest.length < len.toNat then .incomplete
    else .instr (mk (rest.take len.toNat)) (rest.drop len.toNat)

/-- The opcode map of R74. -/
def decodeOpcode (opcode : Byte) (rest : List Byte) : Decoded :=
  match opcode.toNat with
  | 0x00 => .instr .init rest
  | 0x01 => .instr .clear rest
  | 0x02 => decodeRC .setCursor rest
  | 0x03 => decodeB .sendData rest
  | 0x04 => decodeB .sendCmd rest
  | 0x05 => decodeS opcode .setDisplay rest
  | 0x06 => decodeS opcode .setCursorDisplay rest
  | 0x07 => decodeS opcode .setCursorBlink rest
  | 0x08 => decodeV .writeString rest
  | _ => .illegal (.undefinedOpcode opcode) rest

/-- Read one operation from the head of the bytes on the operation port (R73, R77). -/
def decode : List Byte → Decoded
  | [] => .incomplete
  | opcode :: rest => decodeOpcode opcode rest

/-- The state operand's byte (R75). -/
def encodeState : OnOff → Byte
  | .on => 0x01#8
  | .off => 0x00#8

/-- The bytes of a well-formed operation (R73, R74, R77). -/
def encode : Instr → List Byte
  | .init => [0x00#8]
  | .clear => [0x01#8]
  | .setCursor row col => [0x02#8, row, col]
  | .sendData v => [0x03#8, v]
  | .sendCmd v => [0x04#8, v]
  | .setDisplay s => [0x05#8, encodeState s]
  | .setCursorDisplay s => [0x06#8, encodeState s]
  | .setCursorBlink s => [0x07#8, encodeState s]
  | .writeString chars => 0x08#8 :: BitVec.ofNat 8 chars.length :: chars

/-- The `n` bytes of a number, most significant first: R74 reads an operation's fixed part as one number with byte 0
most significant. -/
def bytesOf : (n w : Nat) → List Byte
  | 0, _ => []
  | n + 1, w => BitVec.ofNat 8 (w >>> (8 * n)) :: bytesOf n w

/-- The characters that follow a fixed part when all of them are 0x00: as many as WRITESTRING's count says, none for
any other operation. -/
def zeroChars : List Byte → List Byte
  | [opcode, len] => if opcode = 0x08#8 then List.replicate len.toNat 0x00#8 else []
  | _ => []

/-- The operation bytes of a table word: its fixed part of `nbits` bits, and zeros for the characters of WRITESTRING,
which the table gives no bits (R74, R77). -/
def tableBytes (nbits w : Nat) : List Byte :=
  bytesOf (nbits / 8) w ++ zeroChars (bytesOf (nbits / 8) w)

/-- The operation the decoder reads from a table word, in the numbering of spec/opcode_table.json (R74: bit 0 is bit 0
of the last fixed byte, the opcode byte is the top eight bits). -/
def decodeTableWord (nbits w : Nat) : Option Instr :=
  match decode (tableBytes nbits w) with
  | .instr i _ => some i
  | .illegal _ _ => none
  | .incomplete => none

end Sys2Proof
end

