-- ==== Sys2Proof/Machine/Wire.lean ====
section
/-!
DEFINITION. The wire format (spec R60 to R69): the nibble split, the packed byte, the two frames, and, for claims only,
the reading of a frame and of what the controller latches.
-/

namespace Sys2Proof.Machine

/-- The high nibble in place, `v & 0xF0` (R64, R71 (a)). -/
def highNibble (v : Byte) : Byte := v &&& 0xF0#8

/-- The low nibble moved to bits 7..4, `(v << 4) & 0xF0` (R64, R71 (a)); the bits shifted past bit 7 are dropped by the
mask (R11, R155 (b)). -/
def lowNibble (v : Byte) : Byte := (v <<< 4) &&& 0xF0#8

/-- A control line's bit: its mask when the line is high, nothing when it is low. -/
def line (high : Bool) (mask : Byte) : Byte := if high then mask else 0x00#8

/-- `pack(nib_hi, rs, bl, en)` (R60, R63): the nibble in bits 7..4 and the three control lines. -/
def pack (c : Config) (nibHi : Byte) (rs bl en : Bool) : Byte :=
  nibHi ||| line rs c.rsMask ||| line bl c.blMask ||| line en c.enMask

/-- `FRAME8(rs, v)` (R64, R45): the address byte, then each nibble with enable high and with enable low, high nibble
first; the backlight line is high in every packed byte (R62). -/
def frame8 (c : Config) (rs : Bool) (v : Byte) : List Byte :=
  [c.slaveAddrW,
    pack c (highNibble v) rs true true,
    pack c (highNibble v) rs true false,
    pack c (lowNibble v) rs true true,
    pack c (lowNibble v) rs true false]

/-- `FRAME4(rs, v)` (R66): one enable pulse for the high nibble of `v`. UNVERIFIED (92_eei_decisions.md D9), unsafe for
INIT's third step: notes/assumptions/11.md. -/
def frame4 (c : Config) (rs : Bool) (v : Byte) : List Byte :=
  [c.slaveAddrW,
    pack c (highNibble v) rs true true,
    pack c (highNibble v) rs true false]

/-- A frame without its address byte (R16). -/
def payload (buf : List Byte) : List Byte := buf.drop 1

/-- What the expander receives of a frame (R48): all of the payload on `ok`, some prefix of it on `fail`. -/
def delivered (buf : List Byte) : TxReply → List Byte
  | .ok => payload buf
  | .fail reached => (payload buf).take reached

/-- `decode(f)` of R69, from the enable-low bytes of a 5-byte frame; `none` for any other list. For claims. -/
def frameValue : List Byte → Option Byte
  | [_, _, high, _, low] => some ((high &&& 0xF0#8) ||| (low >>> 4))
  | _ => none

/-- The same from the enable-high bytes (R69, its second form). For claims. -/
def frameValueRaised : List Byte → Option Byte
  | [_, high, _, low, _] => some ((high &&& 0xF0#8) ||| (low >>> 4))
  | _ => none

/-- `rs_of(f)` of R69 for a 5-byte frame. For claims. -/
def frameRs (c : Config) : List Byte → Option Bool
  | [_, _, high, _, _] => some (high &&& c.rsMask != 0x00#8)
  | _ => none

/-- The same from an enable-high byte (R69, its second form). For claims. -/
def frameRsRaised (c : Config) : List Byte → Option Bool
  | [_, high, _, _, _] => some (high &&& c.rsMask != 0x00#8)
  | _ => none

/-- What the controller latches from the successive values of the expander's port (R68): at each falling edge of the
enable line, the register-select line and the nibble presented while enable was high. For claims. -/
def latched (c : Config) : List Byte → List (Bool × Nibble)
  | raised :: lowered :: rest =>
    if raised &&& c.enMask != 0x00#8 && lowered &&& c.enMask == 0x00#8 then
      (raised &&& c.rsMask != 0x00#8, raised.extractLsb' 4 4) :: latched c (lowered :: rest)
    else latched c (lowered :: rest)
  | _ => []

end Sys2Proof.Machine
end

