-- ==== Sys2Proof/Machine/Flags.lean ====
section
/-!
DEFINITION. The field computations of DCF (spec R22, R130, R155 (d) and (f)). ENC has no condition codes (R25).
-/

namespace Sys2Proof.Machine

/-- The bits of DCF that exist (R22); the rest are hardwired 0. -/
def dcfMask (c : Config) : Byte := c.dMask ||| c.cMask ||| c.bMask

/-- Set or clear one field: `DCF | m` for ON, `DCF & ~m` for OFF (R130, R155 (f)). -/
def withField (m : Byte) (s : OnOff) (flags : Byte) : Byte :=
  match s with
  | .on => flags ||| m
  | .off => flags &&& ~~~m

/-- The DISPLAY_CONTROL command byte that carries the flags (R70, R155 (d)). -/
def displayControl (c : Config) (flags : Byte) : Byte := c.cmdDisplayControl ||| flags

end Sys2Proof.Machine
end

