-- ==== Sys2Proof/Machine/Operands.lean ====
section
/-!
DEFINITION. The operand computations of SETCURSOR (spec R42, R140 to R142, R155 (e)): the row fall-back, the one table
ENC reads, and the DDRAM address. Every other operand is used as it stands (R20, R71).
-/

namespace Sys2Proof.Machine

/-- The row looked up: `row` if the table has it, else row 0, without a report (R141). -/
def rowIndex (c : Config) (row : Byte) : Nat := if row.toNat < c.nRows then row.toNat else 0

/-- `MemRead(ROWTAB + i, 1)` (R12, R42): `ROW_BASE[i]`; no other address is readable. -/
def memReadRowTab (c : Config) (i : Nat) : Option Byte := c.rowBase[i]?

/-- `(base + col) & 0xFF` (R142): the column is not checked and the carry is dropped. -/
def ddramAddress (base col : Byte) : Byte := base + col

/-- The SET_DRAM_ADDRESS command byte (R140); when bit 7 of the address is set the OR hides it (R142 (a)). -/
def setDdram (c : Config) (addr : Byte) : Byte := c.cmdSetDdram ||| addr

end Sys2Proof.Machine
end

