-- ==== Sys2Proof/Machine/State.lean ====
section
/-!
DEFINITION. The state of ENC as plain data: the architectural pair `(DCF, init_step)` of spec R21, what the spec lets an
observer see of a run (trace and statuses, R210), and the inputs of a step the spec names beside the state (the
configuration, the operation port, the transport's and the delay provider's answers: R90, R176, R178).
-/

namespace Sys2Proof.Machine

/-- An event of a trace (R13). -/
inductive Event where
  /-- `TX(buf)`: one `transmit` call, address byte first. -/
  | tx (buf : List Byte)
  /-- `WAIT(ms)`: one settle delay. -/
  | wait (ms : Nat)
  deriving DecidableEq, Repr

/-- The statuses of R160. -/
inductive Status where
  | ok
  | transportFailure
  | illegalOperation
  | flagsUnwritten
  deriving DecidableEq, Repr

/-- The numeric code of a status (R160). -/
def Status.code : Status → Nat
  | .ok => 0
  | .transportFailure => 1
  | .illegalOperation => 2
  | .flagsUnwritten => 3

/-- How the machine can stop for good. No status of R160 is a fault: an operation that fails ends in a next state. -/
inductive Fault where
  /-- A `transmit` call never returns: no status, no further operation (R165, 93_implementation_defined.md U9 `stuck`).
  Raised by `transmit` when the state lists "no answer" for the call. Safe: the hardware is stuck too. -/
  | transportNeverReturns
  /-- A `Wait` call never returns (R165). Raised by `waitMs` when the state says this call is the one. Safe: the hardware
  is stuck too. -/
  | delayNeverReturns
  /-- A read of the row address table outside its entries (R12: no other address is readable). Raised by SETCURSOR's
  table read. No admitted configuration reaches it (R42). Safe. -/
  | rowTableUnmapped
  deriving DecidableEq, Repr

/-- What the model gives no meaning to. -/
inductive Refusal where
  /-- An instruction without a meaning yet. Raised by no arm of `exec`: every instruction has its meaning. Safe. -/
  | notModelled (mnemonic : String)
  /-- The configuration record is not admitted (R8: a model refuses any other record). Raised by `step` and by every
  operation. Safe: such a machine is none the spec describes. -/
  | configNotAdmitted
  deriving DecidableEq, Repr

/-- The state. `dcf` and `initStep` are the architectural state (R21); `cfg` never changes (R7, R51). -/
structure State where
  /-- The configuration record, a parameter of every step (R7, R21). -/
  cfg : Config
  /-- `DCF`, the DisplayControlFlags register: `none` is the spec's `unwritten` (R21). -/
  dcf : Option Byte
  /-- `init_step`, the ghost counter 0..8 (R24). -/
  initStep : Nat
  /-- The trace of the run so far, oldest event first (R13, R47). -/
  trace : List Event
  /-- The statuses returned to the host so far, one per operation, oldest first (R160, R210). ENC keeps none of them
  (R25): no operation reads this field. -/
  statuses : List Status
  /-- The bytes the host has put on the operation port and ENC has not consumed, first byte first (R73, R209). -/
  opPort : List Byte
  /-- The transport's answers to the coming `Tx` calls, in order; an entry `none` is a call that never returns (R165,
  R176). For a call past the list's end the answer is the free value `Config.freeReply`. The
  model's own field (DESIGN CHOICE, unsafe for claims of termination: notes/assumptions/2.md). -/
  transport : List (Option TxReply)
  /-- How many `Tx` calls the run has made: the index of the free answer. The model's own field. -/
  txCount : Nat
  /-- Which coming `Wait` call never returns: `some n` the one after `n` that do, `none` none of them (R165, R178). The
  model's own field (DESIGN CHOICE, unsafe for claims of termination: notes/assumptions/5.md). -/
  delayHang : Option Nat
  /-- Every payload byte the expander's output port has received, oldest first: its last entry is what the port shows
  (R29 (a), R48). No operation reads this field. Empty at reset (DESIGN CHOICE, unsafe: notes/assumptions/9.md). -/
  port : List Byte
  deriving DecidableEq, Repr

/-- The state right after reset of the machine with configuration `c` (R30, R190): DCF `unwritten`, `init_step` 0, empty
trace, nothing issued yet. -/
def State.resetWith (c : Config) : State where
  cfg := c
  dcf := none
  initStep := 0
  trace := []
  statuses := []
  opPort := []
  transport := []
  txCount := 0
  delayHang := none
  port := []

/-- The state right after reset, with the default configuration of R7. -/
def State.reset : State := State.resetWith Config.default

end Sys2Proof.Machine
end

