-- ==== Sys2Proof/Machine/Ops.lean ====
section
/-!
DEFINITION. The named operations over the state: the pseudocode primitives of spec R12 (`Tx`, `Wait`, `raise`,
`DCF <-`, `init_step <-`, `return Ok`), the internal procedures `send8` and `send4` (R91, R94), and how an operation
ends: with one status to the host (R160, R168), the one shared operation by which a failure is taken.
-/

namespace Sys2Proof.Machine

/-! ### The registers -/

/-- Read DCF (R22, R23): its bits outside the three fields read as 0; `none` while it is `unwritten`. -/
def State.readDcf (s : State) : Option Byte := s.dcf.map (· &&& dcfMask s.cfg)

/-- `DCF <- v` (R12); bits outside the three fields are hardwired 0 (R22). -/
def State.writeDcf (s : State) (v : Byte) : State := { s with dcf := some (v &&& dcfMask s.cfg) }

/-- `init_step <- k` (R12, R24). -/
def State.setInitStep (s : State) (k : Nat) : State := { s with initStep := k }

/-- Return a status to the host (R160). -/
def State.report (s : State) (st : Status) : State := { s with statuses := s.statuses ++ [st] }

/-- Take the bytes of one operation off the operation port: `rest` is what follows them (R73). -/
def State.consume (s : State) (rest : List Byte) : State := { s with opPort := rest }

/-! ### The transport and the delay provider -/

/-- The transport's answer to the `k`-th coming `Tx` call (R176), `none` if that call never returns (R165): the listed
one, and past the list the free value. -/
def State.replyAt (s : State) (k : Nat) : Option TxReply :=
  s.transport[k]?.getD (some (Config.freeReply (s.txCount + k)))

/-- The state after `Tx(buf)` was answered `r` (R12, R48): the event is in the trace whatever the answer, the answer is
used up, and the expander has received what the answer says. -/
def State.afterTx (s : State) (buf : List Byte) (r : TxReply) : State :=
  { s with
    trace := s.trace ++ [.tx buf]
    transport := s.transport.drop 1
    txCount := s.txCount + 1
    port := s.port ++ delivered buf r }

/-- The state after `Wait(ms)`, `ms > 0`, has returned (R12, R178). -/
def State.afterWait (s : State) (ms : Nat) : State :=
  { s with
    trace := s.trace ++ [.wait ms]
    delayHang := s.delayHang.map (· - 1) }

/-- How a piece of an operation's pseudocode ends (R12, R165). -/
inductive Flow where
  /-- It ran to its end; the next piece starts in `s`. -/
  | go (s : State)
  /-- It ended the operation with a failure status; what was emitted and written stays (R12 `raise`, R168). -/
  | raise (st : Status) (s : State)
  /-- A call of it never returned (R165), or it read what does not exist (R12). -/
  | stuck (f : Fault)
  deriving DecidableEq, Repr

/-- One piece of pseudocode after another: the second runs only if the first ran to its end. -/
def Flow.andThen (f : Flow) (g : State → Flow) : Flow :=
  match f with
  | .go s => g s
  | .raise st s => .raise st s
  | .stuck e => .stuck e

/-- `Tx(buf)` (R12, R176): one `transmit` call, its answer and the state after it; `none` if it never returns (R165). -/
def transmit (buf : List Byte) (s : State) : Option (TxReply × State) :=
  match s.replyAt 0 with
  | none => none
  | some r => some (r, s.afterTx buf r)

/-- `Tx!(buf)` (R12): a failed `transmit` raises `TransportFailure` (R161); no retry (R91, R97). -/
def txOrRaise (buf : List Byte) (s : State) : Flow :=
  match transmit buf s with
  | none => .stuck .transportNeverReturns
  | some (.ok, s') => .go s'
  | some (.fail _, s') => .raise .transportFailure s'

/-- `Wait(ms)` (R12, R178): nothing for 0, else one `WAIT` event; the call may be the one that never returns (R165). -/
def waitMs (ms : Nat) (s : State) : Flow :=
  if ms = 0 then .go s
  else if s.delayHang = some 0 then .stuck .delayNeverReturns
  else .go (s.afterWait ms)

/-- `send8(rs, v)` (R91): one full frame, one `Tx` call. -/
def send8 (rs : Bool) (v : Byte) (s : State) : Flow := txOrRaise (frame8 s.cfg rs v) s

/-- `send4(rs, v)` (R94): one nibble frame, one `Tx` call. -/
def send4 (rs : Bool) (v : Byte) (s : State) : Flow := txOrRaise (frame4 s.cfg rs v) s

/-- Send a value as a full frame, then its settle delay; a failed send is not followed by the delay (R161). -/
def sendThenWait (rs : Bool) (v : Byte) (ms : Nat) (s : State) : Flow :=
  (send8 rs v s).andThen (waitMs ms)

/-- Send the DISPLAY_CONTROL command with the present flags (R115, R118, R130), then its settle delay. Reading DCF while
it is `unwritten` raises `FlagsUnwritten` (R23, R163). -/
def sendFlags (ms : Nat) (s : State) : Flow :=
  match s.readDcf with
  | none => .raise .flagsUnwritten s
  | some flags => sendThenWait false (displayControl s.cfg flags) ms s

/-- How an operation ends (R160, R168): `return Ok`, or the failure's status, in the state reached, and nothing else:
no state is saved, no mode changes, control is the host's again. A stuck call returns no status (R165). -/
def Flow.finish : Flow → Host.Outcome State Fault Refusal
  | .go s => .next (s.report .ok)
  | .raise st s => .next (s.report st)
  | .stuck f => .fault f

/-- One operation of an admitted machine (R90); a record R8 does not admit is refused. -/
def perform (op : State → Flow) (s : State) : Host.Outcome State Fault Refusal :=
  if s.cfg.wf then (op s).finish else .refused .configNotAdmitted

/-! ### Fetching from the operation port -/

/-- What stands at the head of the operation port (R73, R77). -/
def State.fetch (s : State) : Decoded := decode s.opPort

/-- An illegal encoding (R76, R162): the examined bytes are consumed, the status is `IllegalOperation`, and nothing else
happens. -/
def refuseEncoding (rest : List Byte) (s : State) : Host.Outcome State Fault Refusal :=
  perform (fun s => .raise .illegalOperation (s.consume rest)) s

/-- ENC between operations (R181, R210): no whole operation stands on the port, and idling changes nothing. That part of
an operation is waited for is a DESIGN CHOICE, safe: notes/assumptions/6.md. -/
def idle (s : State) : Host.Outcome State Fault Refusal :=
  if s.cfg.wf then .next s else .refused .configNotAdmitted

/-- How many `Tx` calls an operation makes when every one is answered `ok` and DCF is written (R156). -/
def txCalls : Instr → Nat
  | .init => 9
  | .clear | .setCursor _ _ | .sendData _ | .sendCmd _ => 1
  | .setDisplay _ | .setCursorDisplay _ | .setCursorBlink _ => 1
  | .writeString chars => chars.length

/-- Put a table word's operation at the head of the operation port, with an `ok` for each `Tx` call it makes that the
state lists no answer for: the operation and the transport's answers are the inputs of a step (R90, R209). DESIGN CHOICE,
safe: notes/assumptions/7.md. -/
def placeWord (s : State) (nbits w : Nat) : State :=
  let calls := match decodeTableWord nbits w with
    | some i => txCalls i
    | none => 0
  { s with
    opPort := tableBytes nbits w ++ s.opPort
    transport := s.transport ++ List.replicate (calls - s.transport.length) (some .ok) }

end Sys2Proof.Machine
end

