-- ==== Sys2Proof/Machine/ClearString.lean ====
section
/-!
DEFINITION. CLEAR and WRITESTRING (spec R150, R152).
-/

namespace Sys2Proof.Machine

/-- CLEAR (R150): the clear command and this call site's own settle delay; DCF is untouched. -/
def execClear (s : State) : Host.Outcome State Fault Refusal :=
  perform (sendThenWait false s.cfg.cmdClear s.cfg.tClear) s

/-- How the loop of R152 ends: with `Ok`, or with the failure it has met. -/
def endString (failed : Bool) (s : State) : Flow :=
  if failed then .raise .transportFailure s else .go s

/-- The loop of R152: one full frame and one `Tx` call per character, in order; after a failed character `WS_ON_FAIL`
decides. `failed` says whether a character has failed. -/
def sendChars (failed : Bool) (chars : List Byte) (s : State) : Flow :=
  match chars with
  | [] => endString failed s
  | ch :: rest =>
    match transmit (frame8 s.cfg true ch) s with
    | none => .stuck .transportNeverReturns
    | some (.ok, s') => sendChars failed rest s'
    | some (.fail _, s') =>
      match s'.cfg.wsOnFail with
      | .stop => endString true s'
      | .goOn => sendChars true rest s'

/-- WRITESTRING (R152). -/
def execWriteString (chars : List Byte) (s : State) : Host.Outcome State Fault Refusal :=
  perform (sendChars false chars) s

end Sys2Proof.Machine
end

