-- ==== Sys2Proof/Machine/Cursor.lean ====
section
/-!
DEFINITION. SETCURSOR (spec R140): one SET_DRAM_ADDRESS command, no settle delay; the position is not kept (R28).
-/

namespace Sys2Proof.Machine

/-- The pseudocode of R140. -/
def positionCursor (row col : Byte) (s : State) : Flow :=
  match memReadRowTab s.cfg (rowIndex s.cfg row) with
  | none => .stuck .rowTableUnmapped
  | some base => send8 false (setDdram s.cfg (ddramAddress base col)) s

/-- SETCURSOR (R140). -/
def execSetCursor (row col : Byte) (s : State) : Host.Outcome State Fault Refusal :=
  perform (positionCursor row col) s

end Sys2Proof.Machine
end

