-- ==== Sys2Proof/Machine/InitSequence.lean ====
section
/-!
DEFINITION. INIT (spec R110): the eight timed steps R111 to R118, a straight line that a failed `Tx` ends (R119).
-/

namespace Sys2Proof.Machine

/-- The step has completed: `init_step <- k` (R24, R110). -/
def completeStep (k : Nat) (s : State) : Flow := .go (s.setInitStep k)

/-- Step 1 (R111): the power-on settle. -/
def initStep1 (s : State) : Flow :=
  (waitMs s.cfg.tPowerOn s).andThen (completeStep 1)

/-- Step 2 (R112): START_INIT three times, as full frames, each with its own delay. -/
def initStep2 (s : State) : Flow :=
  (((sendThenWait false s.cfg.cmdStartInit s.cfg.tInit1 s).andThen
    (sendThenWait false s.cfg.cmdStartInit s.cfg.tInit2)).andThen
    (sendThenWait false s.cfg.cmdStartInit s.cfg.tInit3)).andThen (completeStep 2)

/-- Step 3 (R113): the switch to 4-bit mode, one nibble frame. -/
def initStep3 (s : State) : Flow :=
  ((send4 false s.cfg.cmd4Bit s).andThen (waitMs s.cfg.tInit4Bit)).andThen (completeStep 3)

/-- Step 4 (R114): function set. -/
def initStep4 (s : State) : Flow :=
  (sendThenWait false s.cfg.cmdFunctionSet s.cfg.tFuncSet s).andThen (completeStep 4)

/-- Step 5 (R115): all three fields off, DCF written before the send. -/
def initStep5 (s : State) : Flow :=
  (sendFlags s.cfg.tInitDoff (s.writeDcf 0x00#8)).andThen (completeStep 5)

/-- Step 6 (R116): clear, with this call site's own delay. -/
def initStep6 (s : State) : Flow :=
  (sendThenWait false s.cfg.cmdClear s.cfg.tInitClear s).andThen (completeStep 6)

/-- Step 7 (R117): entry mode. -/
def initStep7 (s : State) : Flow :=
  (sendThenWait false s.cfg.cmdEntryMode s.cfg.tEntry s).andThen (completeStep 7)

/-- Step 8 (R118): `DCF <- DCF | D_MASK`, then the send. That it is stored is 92_eei_decisions.md D13 (UNVERIFIED, unsafe:
notes/assumptions/12.md). -/
def initStep8 (s : State) : Flow :=
  match s.readDcf with
  | none => .raise .flagsUnwritten s
  | some flags =>
    (sendFlags s.cfg.tInitDon (s.writeDcf (flags ||| s.cfg.dMask))).andThen (completeStep 8)

/-- The eight steps in order (R110). -/
def initSequence (s : State) : Flow :=
  (((((((initStep1 (s.setInitStep 0)).andThen initStep2).andThen initStep3).andThen initStep4).andThen
    initStep5).andThen initStep6).andThen initStep7).andThen initStep8

/-- INIT (R110). -/
def execInit (s : State) : Host.Outcome State Fault Refusal :=
  perform initSequence s

end Sys2Proof.Machine
end

