-- ==== Sys2Proof/Machine/Send.lean ====
section
/-!
DEFINITION. SENDDATA and SENDCMD (spec R92, R93): one full frame, no settle delay, in any state.
-/

namespace Sys2Proof.Machine

/-- SENDDATA (R93): `RS` = 1. -/
def execSendData (v : Byte) (s : State) : Host.Outcome State Fault Refusal :=
  perform (send8 true v) s

/-- SENDCMD (R92): `RS` = 0. DCF is not updated, whatever the command (R203). -/
def execSendCmd (v : Byte) (s : State) : Host.Outcome State Fault Refusal :=
  perform (send8 false v) s

end Sys2Proof.Machine
end

