-- ==== Sys2Proof/Machine/Toggle.lean ====
section
/-!
DEFINITION. SETDISPLAY, SETCURSORDISPLAY and SETCURSORBLINK (spec R130 to R133): one procedure over three masks.
-/

namespace Sys2Proof.Machine

/-- `toggle(m, s)` (R130): write the one field first, then send all three, then settle. The order is
92_eei_decisions.md D12 (UNVERIFIED, unsafe after a failed send: notes/assumptions/12.md). -/
def toggle (m : Byte) (b : OnOff) (s : State) : Flow :=
  match s.readDcf with
  | none => .raise .flagsUnwritten s
  | some flags => sendFlags s.cfg.tToggle (s.writeDcf (withField m b flags))

/-- SETDISPLAY (R131). -/
def execSetDisplay (b : OnOff) (s : State) : Host.Outcome State Fault Refusal :=
  perform (toggle s.cfg.dMask b) s

/-- SETCURSORDISPLAY (R132). -/
def execSetCursorDisplay (b : OnOff) (s : State) : Host.Outcome State Fault Refusal :=
  perform (toggle s.cfg.cMask b) s

/-- SETCURSORBLINK (R133). -/
def execSetCursorBlink (b : OnOff) (s : State) : Host.Outcome State Fault Refusal :=
  perform (toggle s.cfg.bMask b) s

end Sys2Proof.Machine
end

