-- ==== Sys2Proof/Machine/Dispatch.lean ====
section
/-!
DEFINITION. The dispatch: one arm per operation, one direct call of its meaning.
-/

namespace Sys2Proof.Machine

def exec (i : Instr) (s : State) : Host.Outcome State Fault Refusal :=
  match i with
  | .init => Sys2Proof.Machine.execInit s
  | .clear => Sys2Proof.Machine.execClear s
  | .setCursor row col => Sys2Proof.Machine.execSetCursor row col s
  | .sendData v => Sys2Proof.Machine.execSendData v s
  | .sendCmd v => Sys2Proof.Machine.execSendCmd v s
  | .setDisplay b => Sys2Proof.Machine.execSetDisplay b s
  | .setCursorDisplay b => Sys2Proof.Machine.execSetCursorDisplay b s
  | .setCursorBlink b => Sys2Proof.Machine.execSetCursorBlink b s
  | .writeString chars => Sys2Proof.Machine.execWriteString chars s

end Sys2Proof.Machine
end

