-- ==== Sys2Proof/Machine/Step.lean ====
section
/-!
DEFINITION. One step of ENC (spec R90): take one whole operation off the operation port and run it. An illegal encoding
is refused with a status (R76, R162); when no whole operation stands on the port, ENC idles (R181, R210).
-/

namespace Sys2Proof.Machine

/-- One step: decode, take the operation's bytes off the port, run it. -/
def step (s : State) : Host.Outcome State Fault Refusal :=
  match s.fetch with
  | .instr i rest => exec i (s.consume rest)
  | .illegal _ rest => refuseEncoding rest s
  | .incomplete => idle s

/-- `s` with a table word's operation as the next one that `step` fetches and runs (see `placeWord`). -/
def State.withFetchWord (s : State) (nbits w : Nat) : State := placeWord s nbits w

end Sys2Proof.Machine
end

