-- ==== Sys2Proof/Safety.lean ====
section
/-!
DEFINITION. The terms claims use: the premises of a run (spec R209), the whole effect of an operation given its events,
the event lists the spec writes out, what a legal event is, and the invariant of a safe run.
-/

namespace Sys2Proof.Machine

/-! ### Premises about the transport and the delay provider -/

/-- The next `n` `Tx` calls are answered `ok` (`P_all_ok` of R209, for one operation). -/
def State.AnswersOk (s : State) (n : Nat) : Prop := ∀ k, k < n → s.replyAt k = some .ok

/-- The next `n` `Wait` calls return (`P_returns` of R209, for one operation). -/
def State.WaitsReturn (s : State) (n : Nat) : Prop := ∀ k, s.delayHang = some k → n ≤ k

/-- Every `Tx` and every `Wait` call returns, whatever the answers (`P_returns` of R209). -/
def State.CallsReturn (s : State) : Prop := none ∉ s.transport ∧ s.delayHang = none

/-! ### The whole effect of an operation -/

/-- The `TX` events of a list of events. -/
def txEvents (events : List Event) : List Event :=
  events.filter fun
    | .tx _ => true
    | .wait _ => false

/-- The `WAIT` events of a list of events. -/
def waitEvents (events : List Event) : List Event :=
  events.filter fun
    | .tx _ => false
    | .wait _ => true

/-- The payload bytes of the frames of a list of events, in order. -/
def payloads (events : List Event) : List Byte :=
  events.flatMap fun
    | .tx buf => payload buf
    | .wait _ => []

/-- `s` after an operation that emitted `events`, of whose payload bytes the expander received `reached`, and that
returned `st`: one answer used up for each `TX`, one return of the delay provider for each `WAIT`, DCF and everything
else as in `s`. -/
def State.after (s : State) (events : List Event) (reached : List Byte) (st : Status) : State :=
  { s with
    trace := s.trace ++ events
    statuses := s.statuses ++ [st]
    transport := s.transport.drop (txEvents events).length
    txCount := s.txCount + (txEvents events).length
    delayHang := s.delayHang.map (· - (waitEvents events).length)
    port := s.port ++ reached }

/-- The status of an operation whose one `Tx` call was answered so (R160). -/
def statusOf : TxReply → Status
  | .ok => .ok
  | .fail _ => .transportFailure

/-- The event of a `Wait(ms)` call: none for 0 (R12). -/
def settle (ms : Nat) : List Event := if ms = 0 then [] else [.wait ms]

/-- The event of a full frame with `rs = false`. -/
def command (c : Config) (v : Byte) : Event := .tx (frame8 c false v)

/-- The events of INIT when every `Tx` answers `ok`, step by step (R110 to R118). -/
def initEvents (c : Config) : List Event :=
  settle c.tPowerOn
    ++ command c c.cmdStartInit :: settle c.tInit1
    ++ command c c.cmdStartInit :: settle c.tInit2
    ++ command c c.cmdStartInit :: settle c.tInit3
    ++ .tx (frame4 c false c.cmd4Bit) :: settle c.tInit4Bit
    ++ command c c.cmdFunctionSet :: settle c.tFuncSet
    ++ command c c.cmdDisplayControl :: settle c.tInitDoff
    ++ command c c.cmdClear :: settle c.tInitClear
    ++ command c c.cmdEntryMode :: settle c.tEntry
    ++ command c (c.cmdDisplayControl ||| c.dMask) :: settle c.tInitDon

/-- A list of events cut off right after its `n`-th `TX` event, `n` counted from 0; whole if it has no such event. -/
def throughTx : Nat → List Event → List Event
  | _, [] => []
  | n, .wait ms :: rest => .wait ms :: throughTx n rest
  | 0, .tx buf :: _ => [.tx buf]
  | n + 1, .tx buf :: rest => .tx buf :: throughTx n rest

/-- The payload bytes the expander received when the last `TX` of `events` failed after `reached` of its bytes and every
earlier one went through (R48). -/
def reachedBytes (events : List Event) (reached : Nat) : List Byte :=
  match events.getLast? with
  | some (.tx buf) => payloads events.dropLast ++ (payload buf).take reached
  | _ => payloads events

/-- The DCF field mask a toggle operation works on (R131, R132, R133). -/
def toggleMask (c : Config) : Instr → Option Byte
  | .setDisplay _ => some c.dMask
  | .setCursorDisplay _ => some c.cMask
  | .setCursorBlink _ => some c.bMask
  | .init | .clear | .setCursor _ _ | .sendData _ | .sendCmd _ | .writeString _ => none

/-- The state operand of a toggle operation. -/
def toggleState : Instr → Option OnOff
  | .setDisplay b | .setCursorDisplay b | .setCursorBlink b => some b
  | .init | .clear | .setCursor _ _ | .sendData _ | .sendCmd _ | .writeString _ => none

/-- The statuses a decoded operation can end with: R172's table without its column for `IllegalOperation` and its row for
undefined opcode bytes. That status belongs to the bytes of an operation, reserved operand bits of a toggle included, and
is returned before there is a decoded operation (R162, R167). -/
def mayEndWith (i : Instr) (st : Status) : Bool :=
  match i, st with
  | _, .ok => true
  | .writeString chars, .transportFailure => !chars.isEmpty
  | _, .transportFailure => true
  | _, .illegalOperation => false
  | .setDisplay _, .flagsUnwritten => true
  | .setCursorDisplay _, .flagsUnwritten => true
  | .setCursorBlink _, .flagsUnwritten => true
  | _, .flagsUnwritten => false

/-- The most `TX` events an operation emits (R156). -/
def maxTx (i : Instr) : Nat := txCalls i

/-- The most `WAIT` events an operation emits (R156). -/
def maxWait : Instr → Nat
  | .init => 10
  | .clear | .setDisplay _ | .setCursorDisplay _ | .setCursorBlink _ => 1
  | .setCursor _ _ | .sendData _ | .sendCmd _ | .writeString _ => 0

/-- The `Wait`s of an operation, in order: how many `Tx` calls come before each, and its milliseconds (R110 to R118, R130,
R150; the other operations have none). -/
def waitPlan (c : Config) : Instr → List (Nat × Nat)
  | .init =>
    [(0, c.tPowerOn), (1, c.tInit1), (2, c.tInit2), (3, c.tInit3), (4, c.tInit4Bit), (5, c.tFuncSet), (6, c.tInitDoff),
      (7, c.tInitClear), (8, c.tEntry), (9, c.tInitDon)]
  | .clear => [(1, c.tClear)]
  | .setDisplay _ | .setCursorDisplay _ | .setCursorBlink _ => [(1, c.tToggle)]
  | .setCursor _ _ | .sendData _ | .sendCmd _ | .writeString _ => []

/-- For each call of the delay provider an operation makes, in order, how many `Tx` calls come before it: a `Wait(0)` is no
call (R12). -/
def waitCalls (c : Config) (i : Instr) : List Nat := ((waitPlan c i).filter (·.2 ≠ 0)).map (·.1)

/-- How many calls of the delay provider an operation makes before its `k`-th `Tx` call, counted from 0. -/
def waitsBefore (c : Config) (i : Instr) (k : Nat) : Nat := ((waitCalls c i).filter (· ≤ k)).length

/-- Operation bytes that match no row of the opcode table (R76): an opcode byte in 0x09..0xFF, or a format `S` operand
byte with a bit of 7..1 set. -/
def IllegalBytes (bytes : List Byte) : Prop :=
  ∃ opcode rest, bytes = opcode :: rest ∧
    (9 ≤ opcode.toNat ∨
      ((opcode = 0x05#8 ∨ opcode = 0x06#8 ∨ opcode = 0x07#8) ∧ ∃ b more, rest = b :: more ∧ b &&& 0xFE#8 ≠ 0x00#8))

/-- How many bytes of an illegal encoding are examined (R76): the opcode byte in case (a), both in case (b). -/
def examined (bytes : List Byte) : Nat :=
  match bytes with
  | opcode :: _ => if 9 ≤ opcode.toNat then 1 else 2
  | [] => 0

/-- The machine after a list of operations run one after the other (R47): `exec` of each in turn. -/
def execAll : List Instr → State → Host.Outcome State Fault Refusal
  | [], s => .next s
  | i :: rest, s =>
    match exec i s with
    | .next s' => execAll rest s'
    | .fault f => .fault f
    | .refused r => .refused r

/-! ### Legal events -/

/-- The one bit of 3..0 that is no control line (R61). -/
def unassignedBit (c : Config) : Byte := 0x0F#8 &&& ~~~(c.rsMask ||| c.enMask ||| c.blMask)

/-- A byte ENC may send to the expander: backlight high (R62), the unassigned bit 0 (R61). -/
def packedOk (c : Config) (b : Byte) : Bool :=
  b &&& c.blMask == c.blMask && b &&& unassignedBit c == 0x00#8

/-- An enable pulse (R68): the same byte with enable high, then low. -/
def pulseOk (c : Config) (raised lowered : Byte) : Bool :=
  packedOk c raised && packedOk c lowered && lowered &&& c.enMask == 0x00#8 && raised == lowered ||| c.enMask

/-- A frame ENC may hand to the transport (R44, R64, R66, R67): the slave address, then two pulses with the same RS, or
one pulse with RS = 0. -/
def frameOk (c : Config) : List Byte → Bool
  | [a, h1, h0, l1, l0] =>
    a == c.slaveAddrW && pulseOk c h1 h0 && pulseOk c l1 l0 && h0 &&& c.rsMask == l0 &&& c.rsMask
  | [a, h1, h0] => a == c.slaveAddrW && pulseOk c h1 h0 && h0 &&& c.rsMask == 0x00#8
  | _ => false

/-- An event a trace may hold (R13, R44, R61, R62, R67). -/
def eventOk (c : Config) : Event → Bool
  | .tx buf => frameOk c buf
  | .wait ms => decide (0 < ms)

/-! ### The invariant of a safe run -/

/-- What every state of a run satisfies: the configuration is admitted (R8); DCF has no bit outside its fields (R21,
R22); `init_step` is 0..8 (R24); DCF is written once an INIT has completed step 5 (R163); every event is legal; every
byte the expander has received is a legal packed byte; the `Tx` count is the number of `TX` events. -/
structure State.Inv (s : State) : Prop where
  cfg_wf : s.cfg.wf = true
  dcf_fields : ∀ d, s.dcf = some d → d &&& ~~~dcfMask s.cfg = 0x00#8
  initStep_le : s.initStep ≤ 8
  dcf_written : 5 ≤ s.initStep → s.dcf ≠ none
  trace_ok : ∀ e ∈ s.trace, eventOk s.cfg e = true
  port_ok : ∀ b ∈ s.port, packedOk s.cfg b = true
  txCount_eq : s.txCount = (txEvents s.trace).length

/-! ### The DISPLAY_CONTROL command byte last sent (R31) -/

/-- A command byte with the DISPLAY_CONTROL opcode: outside the flags it is the opcode. -/
def isControl (c : Config) (v : Byte) : Bool := v &&& ~~~dcfMask c == c.cmdDisplayControl

/-- The DISPLAY_CONTROL command byte an event carries, if it carries one: a full frame with `rs = false` whose value has
that opcode. -/
def controlOf (c : Config) : Event → Option Byte
  | .tx buf =>
    match frameRs c buf, frameValue buf with
    | some false, some v => if isControl c v then some v else none
    | _, _ => none
  | .wait _ => none

/-- The most recent DISPLAY_CONTROL command byte of a trace. -/
def lastControl (c : Config) (events : List Event) : Option Byte := (events.filterMap (controlOf c)).getLast?

/-- No other command byte ENC composes has the DISPLAY_CONTROL opcode (true of the defaults; R8 does not ask it). -/
def controlDistinct (c : Config) : Prop :=
  isControl c c.cmdStartInit = false ∧ isControl c c.cmdFunctionSet = false ∧ isControl c c.cmdClear = false
    ∧ isControl c c.cmdEntryMode = false ∧ ∀ a : Byte, isControl c (setDdram c a) = false

/-- R31: if no operation so far has failed in the transport and DCF is written, the most recent DISPLAY_CONTROL command
byte of the trace carries DCF. -/
def State.DcfShown (s : State) : Prop :=
  Status.transportFailure ∉ s.statuses →
    ∀ d, s.readDcf = some d → lastControl s.cfg s.trace = some (displayControl s.cfg d)

/-! ### What an operation may not depend on -/

/-- `s` with another past: another ghost counter, trace, statuses and expander history (R24, R25, R29). -/
def State.withPast (s : State) (k : Nat) (trace : List Event) (statuses : List Status) (port : List Byte) : State :=
  { s with initStep := k, trace := trace, statuses := statuses, port := port }

end Sys2Proof.Machine
end

