-- ==== Sys2Proof/Certificates/Slice0/Obligations.lean ====
section
/-!
DEFINITION. The statements about the model, for the provers. Each docstring names the rule of spec/ it formalises, or the
rules it rests on; where it rests on a choice of the model, the log entry.
-/

open Sys2Proof Sys2Proof.Machine

/-! ### Encoding of operations -/

/-- Every well-formed operation is read back from its bytes, whatever follows them (R73, R74, R75, R77). -/
def Obligations.DecodeInvertsEncode : Prop :=
  ∀ (i : Instr) (rest : List Byte), i.wf = true → decode (encode i ++ rest) = .instr i rest

/-- The decoder reads nothing but encodings: each operation has one encoding (R73, R74, R75, R77). -/
def Obligations.DecodeReadsOnlyEncodings : Prop :=
  ∀ (bytes : List Byte) (i : Instr) (rest : List Byte),
    decode bytes = .instr i rest → i.wf = true ∧ bytes = encode i ++ rest

/-- The decoder asks for more bytes exactly when those it has begin an operation's encoding and do not end it (R77). -/
def Obligations.DecodeWaitsForTheRest : Prop :=
  ∀ bytes : List Byte,
    decode bytes = .incomplete ↔ ∃ i more, i.wf = true ∧ more ≠ [] ∧ bytes ++ more = encode i

/-- The decoder refuses exactly the byte strings R76 calls illegal, and looks at no more bytes than R76 says. -/
def Obligations.DecodeRefusesExactlyIllegal : Prop :=
  ∀ bytes : List Byte,
    (∀ why rest, decode bytes = .illegal why rest → IllegalBytes bytes ∧ rest = bytes.drop (examined bytes)) ∧
      (IllegalBytes bytes → ∃ why, decode bytes = .illegal why (bytes.drop (examined bytes)))

/-- One word of each family, written out from the tables of R73 and R74, decodes to the operation it stands for. -/
def Obligations.DecodeSpecWords : Prop :=
  decodeTableWord 8 0x00 = some .init ∧
    decodeTableWord 8 0x01 = some .clear ∧
    decodeTableWord 24 0x020105 = some (.setCursor 0x01#8 0x05#8) ∧
    decodeTableWord 16 0x0341 = some (.sendData 0x41#8) ∧
    decodeTableWord 16 0x0430 = some (.sendCmd 0x30#8) ∧
    decodeTableWord 16 0x0501 = some (.setDisplay .on) ∧
    decodeTableWord 16 0x0600 = some (.setCursorDisplay .off) ∧
    decodeTableWord 16 0x0701 = some (.setCursorBlink .on) ∧
    decode [0x08#8, 0x02#8, 0x41#8, 0x3D#8] = .instr (.writeString [0x41#8, 0x3D#8]) []

/-! ### One step -/

/-- A step runs the operation that stands on the port, after taking its bytes off it (R90). -/
def Obligations.StepRunsDecoded : Prop :=
  ∀ (s : State) (i : Instr) (rest : List Byte),
    decode s.opPort = .instr i rest → step s = exec i { s with opPort := rest }

/-- With no whole operation on the port a step changes nothing (R181: idling has no effect; that a part of an operation
is waited for is the model's choice, notes/assumptions/6.md). -/
def Obligations.StepIdles : Prop :=
  ∀ s : State, s.cfg.wf = true → decode s.opPort = .incomplete → step s = .next s

/-- R162: bytes that match no row of the opcode table end in the status `IllegalOperation`, code 2, with no event and no
state change; only they do, and no operation taken as a value ever does. -/
def Obligations.IllegalOperationIsRefused : Prop :=
  Status.illegalOperation.code = 2 ∧
    (∀ s : State, s.cfg.wf = true → IllegalBytes s.opPort →
      step s = .next { s with
        opPort := s.opPort.drop (examined s.opPort)
        statuses := s.statuses ++ [.illegalOperation] }) ∧
    (∀ s s' : State, step s = .next s' → s'.statuses = s.statuses ++ [.illegalOperation] → IllegalBytes s.opPort) ∧
    ∀ (i : Instr) (s s' : State), exec i s = .next s' → s'.statuses ≠ s.statuses ++ [.illegalOperation]

/-- R8: a configuration record is admitted exactly when (a) to (d) hold, and the model refuses any other record. (Item
(e) is the type of the delays.) -/
def Obligations.UnadmittedConfigIsRefused : Prop :=
  ∀ s : State,
    step s ≠ .refused .configNotAdmitted ↔
      (∃ i j k : Nat, i < 4 ∧ j < 4 ∧ k < 4 ∧ i ≠ j ∧ i ≠ k ∧ j ≠ k ∧
        s.cfg.rsMask = 1#8 <<< i ∧ s.cfg.enMask = 1#8 <<< j ∧ s.cfg.blMask = 1#8 <<< k) ∧
      (∃ i j k : Nat, i < 8 ∧ j < 8 ∧ k < 8 ∧ i ≠ j ∧ i ≠ k ∧ j ≠ k ∧
        s.cfg.dMask = 1#8 <<< i ∧ s.cfg.cMask = 1#8 <<< j ∧ s.cfg.bMask = 1#8 <<< k) ∧
      s.cfg.cmdDisplayControl &&& (s.cfg.dMask ||| s.cfg.cMask ||| s.cfg.bMask) = 0x00#8 ∧
      (1 ≤ s.cfg.nRows ∧ s.cfg.nRows ≤ 4 ∧ s.cfg.rowBase.length = s.cfg.nRows) ∧
      (1 ≤ s.cfg.nCols ∧ s.cfg.nCols ≤ 20)

/-! ### The wire format -/

/-- R95: the four packed bytes of a full frame carry the nibbles of the byte, the caller's RS, backlight high, the enable
line high then low, and nothing on the unassigned bit. -/
def Obligations.FrameCarriesValue : Prop :=
  ∀ (c : Config) (rs : Bool) (b : Byte), c.wf = true →
    ∃ f1 f2 f3 f4, frame8 c rs b = [c.slaveAddrW, f1, f2, f3, f4] ∧
      f1 &&& 0xF0#8 = b &&& 0xF0#8 ∧ f2 &&& 0xF0#8 = b &&& 0xF0#8 ∧
      f3 &&& 0xF0#8 = (b <<< 4) &&& 0xF0#8 ∧ f4 &&& 0xF0#8 = (b <<< 4) &&& 0xF0#8 ∧
      (∀ f ∈ [f1, f2, f3, f4],
        f &&& c.blMask = c.blMask ∧ (f &&& c.rsMask ≠ 0x00#8 ↔ rs = true) ∧
          f &&& (0x0F#8 &&& ~~~(c.rsMask ||| c.enMask ||| c.blMask)) = 0x00#8) ∧
      f1 &&& c.enMask = c.enMask ∧ f3 &&& c.enMask = c.enMask ∧
      f2 &&& c.enMask = 0x00#8 ∧ f4 &&& c.enMask = 0x00#8

/-- R69: decoding a full frame gives back the byte and RS, from the enable-low bytes and from the enable-high bytes
alike; hence the frame is injective in the byte. -/
def Obligations.FrameRoundTrip : Prop :=
  ∀ (c : Config) (rs : Bool) (v : Byte), c.wf = true →
    frameValue (frame8 c rs v) = some v ∧ frameRs c (frame8 c rs v) = some rs ∧
      frameValueRaised (frame8 c rs v) = some v ∧ frameRsRaised c (frame8 c rs v) = some rs ∧
      ∀ w, frame8 c rs w = frame8 c rs v → w = v

/-- What the controller latches of a frame (R68), and of a full frame cut short after `n` payload bytes (R199): one
nibble per whole pulse. -/
def Obligations.FrameLatchesNibbles : Prop :=
  ∀ (c : Config) (rs : Bool) (v : Byte), c.wf = true →
    latched c (payload (frame4 c rs v)) = [(rs, v.extractLsb' 4 4)] ∧
      ∀ n, latched c ((payload (frame8 c rs v)).take n) =
        [(rs, v.extractLsb' 4 4), (rs, v.extractLsb' 0 4)].take (n / 2)

/-- R48: a frame answered `ok` reaches the expander whole and in order; of a frame answered `fail` any prefix may have
reached it, none and all included, and nothing else. -/
def Obligations.FailedFrameReachesAnyPrefix : Prop :=
  ∀ buf part : List Byte,
    delivered buf .ok = buf.drop 1 ∧ (part <+: buf.drop 1 ↔ ∃ n, delivered buf (.fail n) = part)

/-! ### SENDDATA and SENDCMD -/

/-- SENDDATA (R93): one full frame with RS = 1, no settle delay, no state written; `Ok` or `TransportFailure` as the
transport answers, the event in the trace either way. -/
def Obligations.SendDataResult : Prop :=
  ∀ (s : State) (v : Byte) (r : TxReply), s.cfg.wf = true → s.replyAt 0 = some r →
    exec (.sendData v) s = .next
      (s.after [.tx (frame8 s.cfg true v)] (delivered (frame8 s.cfg true v) r) (statusOf r))

/-- SENDCMD (R92): one full frame with RS = 0, no settle delay, no state written, DCF included (R203). -/
def Obligations.SendCmdResult : Prop :=
  ∀ (s : State) (v : Byte) (r : TxReply), s.cfg.wf = true → s.replyAt 0 = some r →
    exec (.sendCmd v) s = .next
      (s.after [.tx (frame8 s.cfg false v)] (delivered (frame8 s.cfg false v) r) (statusOf r))

/-! ### SETCURSOR -/

/-- SETCURSOR (R140, R142, R155 (e)): the command byte is the opcode OR-ed with the row's base plus the column, modulo
256; no settle delay, no state written. -/
def Obligations.SetCursorResult : Prop :=
  ∀ (s : State) (row col : Byte) (r : TxReply), s.cfg.wf = true → s.replyAt 0 = some r →
    ∃ base, s.cfg.rowBase[if row.toNat < s.cfg.nRows then row.toNat else 0]? = some base ∧
      ∀ f, f = frame8 s.cfg false (s.cfg.cmdSetDdram ||| BitVec.ofNat 8 ((base.toNat + col.toNat) % 256)) →
        exec (.setCursor row col) s = .next (s.after [.tx f] (delivered f r) (statusOf r))

/-- R141: a row outside the table behaves exactly as row 0: the same outcome in every state, and `Ok` when the transport
answers `ok`. -/
def Obligations.SetCursorRowFallsBack : Prop :=
  ∀ (s : State) (row col : Byte), s.cfg.nRows ≤ row.toNat →
    exec (.setCursor row col) s = exec (.setCursor 0x00#8 col) s ∧
      (s.cfg.wf = true → s.replyAt 0 = some .ok →
        ∃ s', exec (.setCursor row col) s = .next s' ∧ s'.statuses = s.statuses ++ [.ok])

/-- R143: at the default configuration, in range, the frame is that of `0x80 | (ROW_BASE[row] + col)` and the sum stays
below 0x80; out of range, the row's frame is row 0's. -/
def Obligations.SetCursorInRange : Prop :=
  ∀ (s : State) (row col : Byte) (r : TxReply), s.cfg = Config.default → s.replyAt 0 = some r →
    (row.toNat < 4 → col.toNat < 20 →
      ∃ base : Byte, [0x00#8, 0x40#8, 0x14#8, 0x54#8][row.toNat]? = some base ∧
        (base + col).toNat = base.toNat + col.toNat ∧ base.toNat + col.toNat ≤ 0x67 ∧
        ∀ f, f = frame8 s.cfg false (0x80#8 ||| (base + col)) →
          exec (.setCursor row col) s = .next (s.after [.tx f] (delivered f r) (statusOf r))) ∧
      (4 ≤ row.toNat → exec (.setCursor row col) s = exec (.setCursor 0x00#8 col) s)

/-! ### The display-control toggles -/

/-- R130: the toggle procedure, for each of the three operations: unwritten flags raise `FlagsUnwritten`; otherwise DCF is
written first, keeps its new value when the send fails, the command is sent whatever the old value was, and the settle
delay follows a successful send only. -/
def Obligations.ToggleFollowsProcedure : Prop :=
  ∀ (s : State) (i : Instr) (m : Byte) (b : OnOff), s.cfg.wf = true →
    toggleMask s.cfg i = some m → toggleState i = some b →
    (s.readDcf = none → exec i s = .next { s with statuses := s.statuses ++ [.flagsUnwritten] }) ∧
      ∀ flags new f, s.readDcf = some flags → (new = match b with | .on => flags ||| m | .off => flags &&& ~~~m) →
        f = frame8 s.cfg false (s.cfg.cmdDisplayControl ||| new) →
        (s.replyAt 0 = some .ok → s.WaitsReturn (settle s.cfg.tToggle).length →
          exec i s = .next
            { s.after (.tx f :: settle s.cfg.tToggle) (payload f) .ok with dcf := some new }) ∧
          ∀ n, s.replyAt 0 = some (.fail n) →
            exec i s = .next { s.after [.tx f] ((payload f).take n) .transportFailure with dcf := some new }

/-- R163: a toggle operation ends with `FlagsUnwritten`, code 3, exactly when DCF is `unwritten`, with no event and no
state change; and DCF is unwritten as long as no INIT has reached its step 5 (has completed step 4). -/
def Obligations.ToggleNeedsWrittenFlags : Prop :=
  Status.flagsUnwritten.code = 3 ∧
    (∀ (s : State) (i : Instr) (m : Byte), s.cfg.wf = true → toggleMask s.cfg i = some m → s.dcf = none →
      exec i s = .next { s with statuses := s.statuses ++ [.flagsUnwritten] }) ∧
    (∀ (s s' : State) (i : Instr), exec i s = .next s' → s'.statuses = s.statuses ++ [.flagsUnwritten] →
      s.dcf = none ∧ ∃ m, toggleMask s.cfg i = some m) ∧
    (∀ (s s' : State) (i : Instr), exec i s = .next s' → i ≠ .init → (s'.dcf = none ↔ s.dcf = none)) ∧
    ∀ s s' : State, exec .init s = .next s' → (s'.dcf = none ↔ s.dcf = none ∧ s'.initStep < 4)

/-- R134: a toggle that finds DCF written changes at most the bit of its mask, and that bit exactly when the requested
state differs from the field's prior value; the other fields are preserved. -/
def Obligations.ToggleChangesOneField : Prop :=
  ∀ (s s' : State) (i : Instr) (m flags : Byte) (b : OnOff),
    toggleMask s.cfg i = some m → toggleState i = some b → s.readDcf = some flags → exec i s = .next s' →
    oneBit m = true ∧
      ∃ new, s'.dcf = some new ∧ new &&& ~~~m = flags &&& ~~~m ∧
        flags ^^^ new = if (flags &&& m ≠ 0x00#8 ↔ b = .on) then 0x00#8 else m

/-- Scenario B (R135): `setDisplay(OFF)` then `setCursorBlink(ON)`: the two commands' flag bytes have DISPLAY clear and
differ in BLINK at most, and do differ when BLINK was off. -/
def Obligations.DisplayOffThenBlinkOn : Prop :=
  ∀ (s s1 s2 : State) (flags : Byte), s.readDcf = some flags →
    exec (.setDisplay .off) s = .next s1 → exec (.setCursorBlink .on) s1 = .next s2 →
    ∃ f1 f2, s.trace ++ [command s.cfg (s.cfg.cmdDisplayControl ||| f1)] <+: s1.trace ∧
      s1.trace ++ [command s.cfg (s.cfg.cmdDisplayControl ||| f2)] <+: s2.trace ∧
      f1 &&& s.cfg.dMask = 0x00#8 ∧ f2 &&& s.cfg.dMask = 0x00#8 ∧
      f1 ^^^ f2 = if flags &&& s.cfg.bMask = 0x00#8 then s.cfg.bMask else 0x00#8

/-! ### INIT -/

/-- INIT with every answer `ok` (R110 to R118): the events of the eight steps in order, `DCF = D_MASK`, `init_step` 8,
`Ok`, from any state and for every admitted configuration. -/
def Obligations.InitCompletes : Prop :=
  ∀ s : State, s.cfg.wf = true → s.AnswersOk 9 → s.WaitsReturn (waitEvents (initEvents s.cfg)).length →
    exec .init s = .next
      { s.after (initEvents s.cfg) (payloads (initEvents s.cfg)) .ok with
        dcf := some s.cfg.dMask
        initStep := 8 }

/-- R119: INIT whose `k`-th `Tx` (from 0) fails: the trace ends with that `TX`, `init_step` keeps the last completed step,
DCF keeps the last value written, the status is `TransportFailure`. -/
def Obligations.InitAborts : Prop :=
  ∀ (s : State) (k n : Nat) (events : List Event), s.cfg.wf = true → k < 9 →
    events = throughTx k (initEvents s.cfg) →
    s.AnswersOk k → s.replyAt k = some (.fail n) → s.WaitsReturn (waitEvents events).length →
    exec .init s = .next
      { s.after events (reachedBytes events n) .transportFailure with
        dcf := if k < 5 then s.dcf else if k < 8 then some 0x00#8 else some s.cfg.dMask
        initStep := if k < 3 then 1 else k - 1 }

/-- R32: when INIT returns `Ok`, DCF is `D_MASK` (0x04 at the defaults) and `init_step` is 8. -/
def Obligations.InitOkLeavesDisplayOn : Prop :=
  ∀ s s' : State, exec .init s = .next s' → s'.statuses = s.statuses ++ [.ok] →
    s'.dcf = some s.cfg.dMask ∧ s'.initStep = 8 ∧ (s.cfg = Config.default → s'.dcf = some 0x04#8)

/-- R121: the 16 events of INIT at the default configuration, byte for byte; in general nine `TX` and at most ten `WAIT`,
one for each delay that is not zero. -/
def Obligations.InitTraceAtDefaults : Prop :=
  (∀ s : State, s.cfg = Config.default → s.AnswersOk 9 → s.WaitsReturn 7 →
    ∃ s', exec .init s = .next s' ∧ s'.trace = s.trace ++
      [.wait 50,
        .tx [0x4E#8, 0x3C#8, 0x38#8, 0x0C#8, 0x08#8], .wait 6,
        .tx [0x4E#8, 0x3C#8, 0x38#8, 0x0C#8, 0x08#8], .wait 2,
        .tx [0x4E#8, 0x3C#8, 0x38#8, 0x0C#8, 0x08#8], .wait 11,
        .tx [0x4E#8, 0x2C#8, 0x28#8],
        .tx [0x4E#8, 0x2C#8, 0x28#8, 0x8C#8, 0x88#8], .wait 2,
        .tx [0x4E#8, 0x0C#8, 0x08#8, 0x8C#8, 0x88#8],
        .tx [0x4E#8, 0x0C#8, 0x08#8, 0x1C#8, 0x18#8], .wait 4,
        .tx [0x4E#8, 0x0C#8, 0x08#8, 0x6C#8, 0x68#8], .wait 2,
        .tx [0x4E#8, 0x0C#8, 0x08#8, 0xCC#8, 0xC8#8]]) ∧
    ∀ (s : State), s.cfg.wf = true → s.AnswersOk 9 → s.WaitsReturn 10 →
      ∃ s' events, exec .init s = .next s' ∧ s'.trace = s.trace ++ events ∧
        (txEvents events).length = 9 ∧
        waitEvents events = [s.cfg.tPowerOn, s.cfg.tInit1, s.cfg.tInit2, s.cfg.tInit3, s.cfg.tInit4Bit, s.cfg.tFuncSet,
          s.cfg.tInitDoff, s.cfg.tInitClear, s.cfg.tEntry, s.cfg.tInitDon].flatMap settle

/-! ### CLEAR and WRITESTRING -/

/-- CLEAR (R150): the clear command and the `T_CLEAR` settle, no state written; a failed send is not followed by the
settle (R161). -/
def Obligations.ClearResult : Prop :=
  ∀ (s : State) (f : List Byte), s.cfg.wf = true → f = frame8 s.cfg false s.cfg.cmdClear →
    (s.replyAt 0 = some .ok → s.WaitsReturn (settle s.cfg.tClear).length →
      exec .clear s = .next (s.after (.tx f :: settle s.cfg.tClear) (payload f) .ok)) ∧
      ∀ n, s.replyAt 0 = some (.fail n) →
        exec .clear s = .next (s.after [.tx f] ((payload f).take n) .transportFailure)

/-- WRITESTRING with every answer `ok` (R152): one full frame with RS = 1 per character, in order, nothing between or
after them, `Ok`; of any length, zero included. -/
def Obligations.WriteStringCompletes : Prop :=
  ∀ (s : State) (chars : List Byte) (events : List Event), s.cfg.wf = true → s.AnswersOk chars.length →
    events = chars.map (fun ch => .tx (frame8 s.cfg true ch)) →
    exec (.writeString chars) s = .next (s.after events (payloads events) .ok)

/-- WRITESTRING with `WS_ON_FAIL = stop` (R152): no event follows the first failed `TX`. -/
def Obligations.WriteStringStopsOnFailure : Prop :=
  ∀ (s : State) (chars : List Byte) (k n : Nat) (events : List Event), s.cfg.wf = true →
    s.cfg.wsOnFail = .stop → k < chars.length → s.AnswersOk k → s.replyAt k = some (.fail n) →
    events = (chars.take (k + 1)).map (fun ch => .tx (frame8 s.cfg true ch)) →
    exec (.writeString chars) s = .next (s.after events (reachedBytes events n) .transportFailure)

/-- WRITESTRING with `WS_ON_FAIL = continue` (R152): every character is attempted, whatever the answers, and the status
is `TransportFailure` if at least one failed. -/
def Obligations.WriteStringContinuesOnFailure : Prop :=
  ∀ (s : State) (chars : List Byte) (replies : List TxReply), s.cfg.wf = true → s.cfg.wsOnFail = .goOn →
    replies.length = chars.length → (∀ k r, replies[k]? = some r → s.replyAt k = some r) →
    exec (.writeString chars) s = .next
      (s.after (chars.map (fun ch => .tx (frame8 s.cfg true ch)))
        (List.zipWith (fun ch r => delivered (frame8 s.cfg true ch) r) chars replies).flatten
        (if ∀ r ∈ replies, r = .ok then .ok else .transportFailure))

/-- R78's identity: when every `Tx` answers `ok`, WRITESTRING has the same trace and final state as SENDDATA of each
character in turn; only the statuses returned differ in number. -/
def Obligations.WriteStringIsSendDataOfEach : Prop :=
  ∀ (s : State) (chars : List Byte), s.cfg.wf = true → s.AnswersOk chars.length →
    ∃ s1 s2, exec (.writeString chars) s = .next s1 ∧ execAll (chars.map .sendData) s = .next s2 ∧
      s1.trace = s2.trace ∧ { s1 with statuses := [] } = { s2 with statuses := [] } ∧
      s1.statuses = s.statuses ++ [.ok] ∧ s2.statuses = s.statuses ++ List.replicate chars.length .ok

/-! ### What an operation leaves unchanged -/

/-- Frame of CLEAR, SETCURSOR, SENDDATA, SENDCMD and WRITESTRING (R92, R93, R140, R150, R152: "State written: none"):
DCF, `init_step`, the configuration and the operation port are unchanged; trace, statuses and expander history only
grow. -/
def Obligations.PlainOperationFrame : Prop :=
  ∀ (s s' : State) (i : Instr), toggleMask s.cfg i = none → i ≠ .init → exec i s = .next s' →
    s'.dcf = s.dcf ∧ s'.initStep = s.initStep ∧ s'.cfg = s.cfg ∧ s'.opPort = s.opPort ∧
      s.trace <+: s'.trace ∧ s.statuses <+: s'.statuses ∧ s.port <+: s'.port

/-- Frame of the three toggles (R131, R132, R133): of DCF only the operation's field can change; `init_step`, the
configuration and the operation port are unchanged; trace, statuses and expander history only grow. -/
def Obligations.ToggleFrame : Prop :=
  ∀ (s s' : State) (i : Instr) (m : Byte), toggleMask s.cfg i = some m → exec i s = .next s' →
    (∀ flags, s.readDcf = some flags → ∃ new, s'.readDcf = some new ∧ new &&& ~~~m = flags &&& ~~~m) ∧
      s'.initStep = s.initStep ∧ s'.cfg = s.cfg ∧ s'.opPort = s.opPort ∧
      s.trace <+: s'.trace ∧ s.statuses <+: s'.statuses ∧ s.port <+: s'.port

/-- Frame of INIT (R110): it writes DCF and `init_step` and nothing else that is state. -/
def Obligations.InitFrame : Prop :=
  ∀ s s' : State, exec .init s = .next s' →
    s'.cfg = s.cfg ∧ s'.opPort = s.opPort ∧
      s.trace <+: s'.trace ∧ s.statuses <+: s'.statuses ∧ s.port <+: s'.port

/-- The configuration is fixed for the whole run (R7, R51). -/
def Obligations.StepKeepsConfig : Prop :=
  ∀ s s' : State, step s = .next s' → s'.cfg = s.cfg

/-- The trace of a run is one totally ordered list that only grows at its end, and the port's bytes are taken from its
front (R47, R73). -/
def Obligations.StepOnlyAppends : Prop :=
  ∀ s s' : State, step s = .next s' →
    s.trace <+: s'.trace ∧ s.statuses <+: s'.statuses ∧ s.port <+: s'.port ∧ s'.opPort <:+ s.opPort

/-! ### Statuses, stops and bounds -/

/-- Every decoded operation returns exactly one status (R160), one that R172's table allows it, and each status the table
allows a decoded operation does occur. The table's `IllegalOperation` column, reserved operand bits of the toggles
included, belongs to the operation's bytes and is stated by IllegalOperationIsRefused (R162). -/
def Obligations.StatusTable : Prop :=
  (∀ (s s' : State) (i : Instr), exec i s = .next s' →
    ∃ st, s'.statuses = s.statuses ++ [st] ∧ mayEndWith i st = true) ∧
    ∀ (i : Instr) (st : Status), mayEndWith i st = true →
      ∃ s s' : State, s.Inv ∧ exec i s = .next s' ∧ s'.statuses = s.statuses ++ [st]

/-- How many events an operation emits at most (R156). -/
def Obligations.EventBounds : Prop :=
  ∀ (s s' : State) (i : Instr), exec i s = .next s' →
    ∃ events, s'.trace = s.trace ++ events ∧
      (txEvents events).length ≤ maxTx i ∧ (waitEvents events).length ≤ maxWait i

/-- R67: the length handed to `transmit` is 5 for a full frame and 3 for a nibble frame, and no other length ever occurs;
the 3-byte frame is INIT's 4-bit switch and no other. -/
def Obligations.FrameLengths : Prop :=
  ∀ (s s' : State) (i : Instr), exec i s = .next s' →
    ∃ events, s'.trace = s.trace ++ events ∧ ∀ buf, .tx buf ∈ events →
      (∃ rs v, buf = frame8 s.cfg rs v ∧ buf.length = 5) ∨
        (i = .init ∧ buf = frame4 s.cfg false s.cfg.cmd4Bit ∧ buf.length = 3)

/-- A call that never returns is the only way an admitted machine's operation stops (R165, R205), and it does stop it: any
`Tx` call of any operation, and any `Wait` call of any operation, that is reached and never returns. A call is reached when
the `Tx` calls before it answered `ok`, the `Wait` calls before it returned, and a toggle found DCF written; in WRITESTRING
with `WS_ON_FAIL = continue` also after answers `fail`. Which calls never return, the model's own fields say
(notes/assumptions/2.md, 5.md). -/
def Obligations.OnlyBlockedCallsStop : Prop :=
  (∀ (s : State) (i : Instr) (f : Fault), exec i s = .fault f →
    (f = .transportNeverReturns ∧ none ∈ s.transport) ∨
      (f = .delayNeverReturns ∧ ∃ n, s.delayHang = some n ∧ n < maxWait i)) ∧
    (∀ (s : State) (i : Instr) (k : Nat), s.cfg.wf = true → (toggleState i ≠ none → s.dcf ≠ none) →
      k < txCalls i → s.AnswersOk k → s.WaitsReturn (waitsBefore s.cfg i k) → s.replyAt k = none →
      exec i s = .fault .transportNeverReturns) ∧
    (∀ (s : State) (chars : List Byte) (k : Nat), s.cfg.wf = true → s.cfg.wsOnFail = .goOn →
      k < chars.length → (∀ j, j < k → s.replyAt j ≠ none) → s.replyAt k = none →
      exec (.writeString chars) s = .fault .transportNeverReturns) ∧
    ∀ (s : State) (i : Instr) (n k : Nat), s.cfg.wf = true → (toggleState i ≠ none → s.dcf ≠ none) →
      (waitCalls s.cfg i)[n]? = some k → s.AnswersOk k → s.delayHang = some n →
      exec i s = .fault .delayNeverReturns

/-- Under `P_returns` (R209 (c)) every operation of an admitted machine returns, whatever the transport answers, and the
premise holds again for the next one (R156, R205, R210). That a call past the listed answers returns is the model's
choice (notes/assumptions/2.md). -/
def Obligations.OperationsReturn : Prop :=
  ∀ (s : State) (i : Instr), s.cfg.wf = true → s.CallsReturn →
    ∃ s', exec i s = .next s' ∧ s'.cfg = s.cfg ∧ s'.CallsReturn

/-! ### Reset and invariants -/

/-- R30: after reset DCF is `unwritten`, `init_step` is 0 and the trace is empty: of the machine `core` starts, and of the
machine of every other configuration. -/
def Obligations.ResetLeaves : Prop :=
  ∀ s : State, (s = core.reset ∨ ∃ c, s = State.resetWith c) → s.dcf = none ∧ s.initStep = 0 ∧ s.trace = []

/-- The invariant holds after reset, for every admitted configuration, the default among them. -/
def Obligations.ResetMeetsInvariant : Prop :=
  (∀ c : Config, c.wf = true → (State.resetWith c).Inv) ∧ State.reset.Inv

/-- Every step keeps the invariant: admitted configuration (R8), DCF within its fields (R21, R22), `init_step` at most 8
(R24), DCF written once INIT has passed step 5 (R163), every event legal (R13, R44, R67), backlight high and the
unassigned bit 0 in every byte the expander receives (R61, R62). -/
def Obligations.StepKeepsInvariant : Prop :=
  ∀ s s' : State, s.Inv → step s = .next s' → s'.Inv

/-- R31: as long as no `Tx` has failed, DCF is what the most recent DISPLAY_CONTROL command byte carried. Every operation
keeps this, but for a SENDCMD that itself sends a DISPLAY_CONTROL byte (R203), where no other command of the
configuration has that opcode. -/
def Obligations.DcfMatchesLastCommand : Prop :=
  ∀ (s s' : State) (i : Instr), controlDistinct s.cfg → (∀ v, i = .sendCmd v → isControl s.cfg v = false) →
    s.DcfShown → exec i s = .next s' → s'.DcfShown

/-- `init_step` is ghost state (R24), and so, for ENC, is all of the past: earlier statuses and failures (R25), the
trace, and what the expander holds (R29). Two states that differ only there run every operation alike: the same new
events, the same status, the same DCF, the same bytes sent. -/
def Obligations.PastIsForgotten : Prop :=
  ∀ (s s' : State) (i : Instr) (k : Nat) (trace : List Event) (statuses : List Status) (port : List Byte),
    exec i s = .next s' →
    ∃ events st bytes,
      s'.trace = s.trace ++ events ∧ s'.statuses = s.statuses ++ [st] ∧ s'.port = s.port ++ bytes ∧
        exec i (s.withPast k trace statuses port) = .next
          (s'.withPast (if i = .init then s'.initStep else k) (trace ++ events) (statuses ++ [st]) (port ++ bytes))
end

