-- ==== Sys2Proof/Laws/State.lean ====
section
/-!
SUPPORT. One lemma per field per update of State (true by `rfl`, `@[simp]`), so that no proof unfolds a record update,
and what each accessor reads after each update.
-/

namespace Sys2Proof.Machine

@[simp] theorem State.writeDcf_cfg (s : State) (v : Byte) :
    (s.writeDcf v).cfg = s.cfg := rfl
@[simp] theorem State.writeDcf_dcf (s : State) (v : Byte) :
    (s.writeDcf v).dcf = some (v &&& dcfMask s.cfg) := rfl
@[simp] theorem State.writeDcf_initStep (s : State) (v : Byte) :
    (s.writeDcf v).initStep = s.initStep := rfl
@[simp] theorem State.writeDcf_trace (s : State) (v : Byte) :
    (s.writeDcf v).trace = s.trace := rfl
@[simp] theorem State.writeDcf_statuses (s : State) (v : Byte) :
    (s.writeDcf v).statuses = s.statuses := rfl
@[simp] theorem State.writeDcf_opPort (s : State) (v : Byte) :
    (s.writeDcf v).opPort = s.opPort := rfl
@[simp] theorem State.writeDcf_transport (s : State) (v : Byte) :
    (s.writeDcf v).transport = s.transport := rfl
@[simp] theorem State.writeDcf_txCount (s : State) (v : Byte) :
    (s.writeDcf v).txCount = s.txCount := rfl
@[simp] theorem State.writeDcf_delayHang (s : State) (v : Byte) :
    (s.writeDcf v).delayHang = s.delayHang := rfl
@[simp] theorem State.writeDcf_port (s : State) (v : Byte) :
    (s.writeDcf v).port = s.port := rfl

@[simp] theorem State.setInitStep_cfg (s : State) (k : Nat) :
    (s.setInitStep k).cfg = s.cfg := rfl
@[simp] theorem State.setInitStep_dcf (s : State) (k : Nat) :
    (s.setInitStep k).dcf = s.dcf := rfl
@[simp] theorem State.setInitStep_initStep (s : State) (k : Nat) :
    (s.setInitStep k).initStep = k := rfl
@[simp] theorem State.setInitStep_trace (s : State) (k : Nat) :
    (s.setInitStep k).trace = s.trace := rfl
@[simp] theorem State.setInitStep_statuses (s : State) (k : Nat) :
    (s.setInitStep k).statuses = s.statuses := rfl
@[simp] theorem State.setInitStep_opPort (s : State) (k : Nat) :
    (s.setInitStep k).opPort = s.opPort := rfl
@[simp] theorem State.setInitStep_transport (s : State) (k : Nat) :
    (s.setInitStep k).transport = s.transport := rfl
@[simp] theorem State.setInitStep_txCount (s : State) (k : Nat) :
    (s.setInitStep k).txCount = s.txCount := rfl
@[simp] theorem State.setInitStep_delayHang (s : State) (k : Nat) :
    (s.setInitStep k).delayHang = s.delayHang := rfl
@[simp] theorem State.setInitStep_port (s : State) (k : Nat) :
    (s.setInitStep k).port = s.port := rfl

@[simp] theorem State.report_cfg (s : State) (st : Status) :
    (s.report st).cfg = s.cfg := rfl
@[simp] theorem State.report_dcf (s : State) (st : Status) :
    (s.report st).dcf = s.dcf := rfl
@[simp] theorem State.report_initStep (s : State) (st : Status) :
    (s.report st).initStep = s.initStep := rfl
@[simp] theorem State.report_trace (s : State) (st : Status) :
    (s.report st).trace = s.trace := rfl
@[simp] theorem State.report_statuses (s : State) (st : Status) :
    (s.report st).statuses = s.statuses ++ [st] := rfl
@[simp] theorem State.report_opPort (s : State) (st : Status) :
    (s.report st).opPort = s.opPort := rfl
@[simp] theorem State.report_transport (s : State) (st : Status) :
    (s.report st).transport = s.transport := rfl
@[simp] theorem State.report_txCount (s : State) (st : Status) :
    (s.report st).txCount = s.txCount := rfl
@[simp] theorem State.report_delayHang (s : State) (st : Status) :
    (s.report st).delayHang = s.delayHang := rfl
@[simp] theorem State.report_port (s : State) (st : Status) :
    (s.report st).port = s.port := rfl

@[simp] theorem State.consume_cfg (s : State) (rest : List Byte) :
    (s.consume rest).cfg = s.cfg := rfl
@[simp] theorem State.consume_dcf (s : State) (rest : List Byte) :
    (s.consume rest).dcf = s.dcf := rfl
@[simp] theorem State.consume_initStep (s : State) (rest : List Byte) :
    (s.consume rest).initStep = s.initStep := rfl
@[simp] theorem State.consume_trace (s : State) (rest : List Byte) :
    (s.consume rest).trace = s.trace := rfl
@[simp] theorem State.consume_statuses (s : State) (rest : List Byte) :
    (s.consume rest).statuses = s.statuses := rfl
@[simp] theorem State.consume_opPort (s : State) (rest : List Byte) :
    (s.consume rest).opPort = rest := rfl
@[simp] theorem State.consume_transport (s : State) (rest : List Byte) :
    (s.consume rest).transport = s.transport := rfl
@[simp] theorem State.consume_txCount (s : State) (rest : List Byte) :
    (s.consume rest).txCount = s.txCount := rfl
@[simp] theorem State.consume_delayHang (s : State) (rest : List Byte) :
    (s.consume rest).delayHang = s.delayHang := rfl
@[simp] theorem State.consume_port (s : State) (rest : List Byte) :
    (s.consume rest).port = s.port := rfl

@[simp] theorem State.afterTx_cfg (s : State) (buf : List Byte) (r : TxReply) :
    (s.afterTx buf r).cfg = s.cfg := rfl
@[simp] theorem State.afterTx_dcf (s : State) (buf : List Byte) (r : TxReply) :
    (s.afterTx buf r).dcf = s.dcf := rfl
@[simp] theorem State.afterTx_initStep (s : State) (buf : List Byte) (r : TxReply) :
    (s.afterTx buf r).initStep = s.initStep := rfl
@[simp] theorem State.afterTx_trace (s : State) (buf : List Byte) (r : TxReply) :
    (s.afterTx buf r).trace = s.trace ++ [.tx buf] := rfl
@[simp] theorem State.afterTx_statuses (s : State) (buf : List Byte) (r : TxReply) :
    (s.afterTx buf r).statuses = s.statuses := rfl
@[simp] theorem State.afterTx_opPort (s : State) (buf : List Byte) (r : TxReply) :
    (s.afterTx buf r).opPort = s.opPort := rfl
@[simp] theorem State.afterTx_transport (s : State) (buf : List Byte) (r : TxReply) :
    (s.afterTx buf r).transport = s.transport.drop 1 := rfl
@[simp] theorem State.afterTx_txCount (s : State) (buf : List Byte) (r : TxReply) :
    (s.afterTx buf r).txCount = s.txCount + 1 := rfl
@[simp] theorem State.afterTx_delayHang (s : State) (buf : List Byte) (r : TxReply) :
    (s.afterTx buf r).delayHang = s.delayHang := rfl
@[simp] theorem State.afterTx_port (s : State) (buf : List Byte) (r : TxReply) :
    (s.afterTx buf r).port = s.port ++ delivered buf r := rfl

@[simp] theorem State.afterWait_cfg (s : State) (ms : Nat) :
    (s.afterWait ms).cfg = s.cfg := rfl
@[simp] theorem State.afterWait_dcf (s : State) (ms : Nat) :
    (s.afterWait ms).dcf = s.dcf := rfl
@[simp] theorem State.afterWait_initStep (s : State) (ms : Nat) :
    (s.afterWait ms).initStep = s.initStep := rfl
@[simp] theorem State.afterWait_trace (s : State) (ms : Nat) :
    (s.afterWait ms).trace = s.trace ++ [.wait ms] := rfl
@[simp] theorem State.afterWait_statuses (s : State) (ms : Nat) :
    (s.afterWait ms).statuses = s.statuses := rfl
@[simp] theorem State.afterWait_opPort (s : State) (ms : Nat) :
    (s.afterWait ms).opPort = s.opPort := rfl
@[simp] theorem State.afterWait_transport (s : State) (ms : Nat) :
    (s.afterWait ms).transport = s.transport := rfl
@[simp] theorem State.afterWait_txCount (s : State) (ms : Nat) :
    (s.afterWait ms).txCount = s.txCount := rfl
@[simp] theorem State.afterWait_delayHang (s : State) (ms : Nat) :
    (s.afterWait ms).delayHang = s.delayHang.map (· - 1) := rfl
@[simp] theorem State.afterWait_port (s : State) (ms : Nat) :
    (s.afterWait ms).port = s.port := rfl

@[simp] theorem State.resetWith_cfg (c : Config) : (State.resetWith c).cfg = c := rfl
@[simp] theorem State.resetWith_dcf (c : Config) : (State.resetWith c).dcf = none := rfl
@[simp] theorem State.resetWith_initStep (c : Config) : (State.resetWith c).initStep = 0 := rfl
@[simp] theorem State.resetWith_trace (c : Config) : (State.resetWith c).trace = [] := rfl
@[simp] theorem State.resetWith_statuses (c : Config) : (State.resetWith c).statuses = [] := rfl
@[simp] theorem State.resetWith_opPort (c : Config) : (State.resetWith c).opPort = [] := rfl
@[simp] theorem State.resetWith_transport (c : Config) : (State.resetWith c).transport = [] := rfl
@[simp] theorem State.resetWith_txCount (c : Config) : (State.resetWith c).txCount = 0 := rfl
@[simp] theorem State.resetWith_delayHang (c : Config) : (State.resetWith c).delayHang = none := rfl
@[simp] theorem State.resetWith_port (c : Config) : (State.resetWith c).port = [] := rfl

@[simp] theorem State.readDcf_setInitStep (s : State) (k : Nat) : (s.setInitStep k).readDcf = s.readDcf := rfl
@[simp] theorem State.readDcf_report (s : State) (st : Status) : (s.report st).readDcf = s.readDcf := rfl
@[simp] theorem State.readDcf_consume (s : State) (rest : List Byte) : (s.consume rest).readDcf = s.readDcf := rfl
@[simp] theorem State.readDcf_afterTx (s : State) (buf : List Byte) (r : TxReply) :
    (s.afterTx buf r).readDcf = s.readDcf := rfl
@[simp] theorem State.readDcf_afterWait (s : State) (ms : Nat) : (s.afterWait ms).readDcf = s.readDcf := rfl

/-- DCF reads back what was written, less the bits that do not exist (R22). -/
@[simp] theorem State.readDcf_writeDcf (s : State) (v : Byte) :
    (s.writeDcf v).readDcf = some (v &&& dcfMask s.cfg) := by
  simp [State.readDcf, BitVec.and_assoc]

@[simp] theorem State.replyAt_writeDcf (s : State) (v : Byte) (k : Nat) :
    (s.writeDcf v).replyAt k = s.replyAt k := rfl
@[simp] theorem State.replyAt_setInitStep (s : State) (k j : Nat) :
    (s.setInitStep k).replyAt j = s.replyAt j := rfl
@[simp] theorem State.replyAt_report (s : State) (st : Status) (k : Nat) :
    (s.report st).replyAt k = s.replyAt k := rfl
@[simp] theorem State.replyAt_consume (s : State) (rest : List Byte) (k : Nat) :
    (s.consume rest).replyAt k = s.replyAt k := rfl
@[simp] theorem State.replyAt_afterWait (s : State) (ms k : Nat) :
    (s.afterWait ms).replyAt k = s.replyAt k := rfl

/-- A `Tx` uses up one answer: the next one is the one that stood after it. -/
@[simp] theorem State.replyAt_afterTx (s : State) (buf : List Byte) (r : TxReply) (k : Nat) :
    (s.afterTx buf r).replyAt k = s.replyAt (k + 1) := by
  simp [State.replyAt, Nat.add_comm, Nat.add_left_comm]

end Sys2Proof.Machine
end

