-- ==== Sys2Proof/Laws/Ops.lean ====
section
/-!
SUPPORT. What each shared operation can do, once: the equations of `Flow`, of `Tx`, `Wait`, `send8` and `perform` by
the answer they get, and one rule (`Flow.Holds`) by which a fact about states is carried through an operation.
-/

namespace Sys2Proof.Machine

/-! ### Flow -/

@[simp] theorem Flow.andThen_go (s : State) (g : State → Flow) : (Flow.go s).andThen g = g s := rfl
@[simp] theorem Flow.andThen_raise (st : Status) (s : State) (g : State → Flow) :
    (Flow.raise st s).andThen g = .raise st s := rfl
@[simp] theorem Flow.andThen_stuck (f : Fault) (g : State → Flow) : (Flow.stuck f).andThen g = .stuck f := rfl
@[simp] theorem Flow.finish_go (s : State) : (Flow.go s).finish = .next (s.report .ok) := rfl
@[simp] theorem Flow.finish_raise (st : Status) (s : State) : (Flow.raise st s).finish = .next (s.report st) := rfl
@[simp] theorem Flow.finish_stuck (f : Fault) : (Flow.stuck f).finish = .fault f := rfl

/-- What holds of the state a flow hands on: `P` if it goes on, `Q` of status and state if it raises; nothing of a stuck
flow. -/
def Flow.Holds (P : State → Prop) (Q : Status → State → Prop) : Flow → Prop
  | .go s => P s
  | .raise st s => Q st s
  | .stuck _ => True

theorem Flow.Holds.andThen {P P' : State → Prop} {Q : Status → State → Prop} {f : Flow} {g : State → Flow}
    (hf : f.Holds P Q) (hg : ∀ s, P s → (g s).Holds P' Q) : (f.andThen g).Holds P' Q := by
  cases f with
  | go s => exact hg s hf
  | raise st s => exact hf
  | stuck e => trivial

theorem Flow.Holds.mono {P P' : State → Prop} {Q Q' : Status → State → Prop} {f : Flow} (hf : f.Holds P Q)
    (hP : ∀ s, P s → P' s) (hQ : ∀ st s, Q st s → Q' st s) : f.Holds P' Q' := by
  cases f with
  | go s => exact hP s hf
  | raise st s => exact hQ st s hf
  | stuck e => trivial

/-! ### Tx and Wait -/

theorem txOrRaise_ok {buf : List Byte} {s : State} (h : s.replyAt 0 = some .ok) :
    txOrRaise buf s = .go (s.afterTx buf .ok) := by
  simp [txOrRaise, transmit, h]

theorem txOrRaise_fail {buf : List Byte} {s : State} {n : Nat} (h : s.replyAt 0 = some (.fail n)) :
    txOrRaise buf s = .raise .transportFailure (s.afterTx buf (.fail n)) := by
  simp [txOrRaise, transmit, h]

theorem txOrRaise_never {buf : List Byte} {s : State} (h : s.replyAt 0 = none) :
    txOrRaise buf s = .stuck .transportNeverReturns := by
  simp [txOrRaise, transmit, h]

/-- Everything `Tx!` can do. -/
theorem txOrRaise_holds {P : State → Prop} {Q : Status → State → Prop} {buf : List Byte} {s : State}
    (hok : s.replyAt 0 = some .ok → P (s.afterTx buf .ok))
    (hfail : ∀ n, s.replyAt 0 = some (.fail n) → Q .transportFailure (s.afterTx buf (.fail n))) :
    (txOrRaise buf s).Holds P Q := by
  cases h : s.replyAt 0 with
  | none => simp [txOrRaise_never h, Flow.Holds]
  | some r =>
    cases r with
    | ok => simpa [txOrRaise_ok h, Flow.Holds] using hok h
    | fail n => simpa [txOrRaise_fail h, Flow.Holds] using hfail n h

@[simp] theorem waitMs_zero (s : State) : waitMs 0 s = .go s := rfl

theorem waitMs_pos {ms : Nat} {s : State} (hms : ms ≠ 0) (h : s.delayHang ≠ some 0) :
    waitMs ms s = .go (s.afterWait ms) := by
  simp [waitMs, hms, h]

theorem waitMs_never {ms : Nat} {s : State} (hms : ms ≠ 0) (h : s.delayHang = some 0) :
    waitMs ms s = .stuck .delayNeverReturns := by
  simp [waitMs, hms, h]

/-- Everything `Wait` can do. -/
theorem waitMs_holds {P : State → Prop} {Q : Status → State → Prop} {ms : Nat} {s : State}
    (h0 : ms = 0 → P s) (h1 : ms ≠ 0 → P (s.afterWait ms)) : (waitMs ms s).Holds P Q := by
  unfold waitMs
  split
  · exact h0 ‹_›
  · split
    · trivial
    · exact h1 ‹_›

/-! ### Operations -/

theorem perform_wf {op : State → Flow} {s : State} (h : s.cfg.wf = true) : perform op s = (op s).finish := by
  simp [perform, h]

theorem perform_not_wf {op : State → Flow} {s : State} (h : s.cfg.wf = false) :
    perform op s = .refused .configNotAdmitted := by
  simp [perform, h]

/-- If an operation answers a next state, the configuration is admitted and the state is what its pseudocode reached,
with one status more. -/
theorem perform_next {op : State → Flow} {s s' : State} (h : perform op s = .next s') :
    s.cfg.wf = true ∧
      ((∃ t, op s = .go t ∧ s' = t.report .ok) ∨ ∃ st t, op s = .raise st t ∧ s' = t.report st) := by
  by_cases hw : s.cfg.wf = true
  · refine ⟨hw, ?_⟩
    rw [perform_wf hw] at h
    cases ho : op s with
    | go t => left; rw [ho] at h; cases h; exact ⟨t, rfl, rfl⟩
    | raise st t => right; rw [ho] at h; cases h; exact ⟨st, t, rfl, rfl⟩
    | stuck e => rw [ho] at h; cases h
  · simp [perform, hw] at h

/-- What an operation's pseudocode keeps, the operation keeps. -/
theorem perform_holds {op : State → Flow} {s s' : State} {R : State → Prop} (h : perform op s = .next s')
    (hop : (op s).Holds (fun t => R (t.report .ok)) (fun st t => R (t.report st))) : R s' := by
  obtain ⟨-, ⟨t, ht, rfl⟩ | ⟨st, t, ht, rfl⟩⟩ := perform_next h <;> simpa [ht, Flow.Holds] using hop

/-- Everything one step can do: run a decoded operation, refuse an encoding, or idle. -/
theorem step_cases (s : State) :
    (∃ i rest, decode s.opPort = .instr i rest ∧ step s = exec i (s.consume rest)) ∨
      (∃ why rest, decode s.opPort = .illegal why rest ∧ step s = refuseEncoding rest s) ∨
      (decode s.opPort = .incomplete ∧ step s = idle s) := by
  unfold step State.fetch
  cases decode s.opPort with
  | instr i rest => exact .inl ⟨i, rest, rfl, rfl⟩
  | illegal why rest => exact .inr (.inl ⟨why, rest, rfl, rfl⟩)
  | incomplete => exact .inr (.inr ⟨rfl, rfl⟩)

end Sys2Proof.Machine
end

