-- ==== Sys2Proof/Laws/Run.lean ====
section
/-!
SUPPORT. Symbolic running: `State.ran` is the effect of a list of events on the state, one definition for `Tx` and `Wait`
alike, with its composition law, and the send and settle procedures as `ran` of what they emit. A proof about an
operation chains these lemmas and never unfolds a primitive.
-/

namespace Sys2Proof.Machine

@[simp] theorem txEvents_nil : txEvents [] = [] := rfl
@[simp] theorem txEvents_tx (buf : List Byte) (es : List Event) : txEvents (.tx buf :: es) = .tx buf :: txEvents es := rfl
@[simp] theorem txEvents_wait (ms : Nat) (es : List Event) : txEvents (.wait ms :: es) = txEvents es := rfl
@[simp] theorem txEvents_append (a b : List Event) : txEvents (a ++ b) = txEvents a ++ txEvents b := by
  simp [txEvents]
@[simp] theorem waitEvents_nil : waitEvents [] = [] := rfl
@[simp] theorem waitEvents_tx (buf : List Byte) (es : List Event) : waitEvents (.tx buf :: es) = waitEvents es := rfl
@[simp] theorem waitEvents_wait (ms : Nat) (es : List Event) :
    waitEvents (.wait ms :: es) = .wait ms :: waitEvents es := rfl
@[simp] theorem waitEvents_append (a b : List Event) : waitEvents (a ++ b) = waitEvents a ++ waitEvents b := by
  simp [waitEvents]
@[simp] theorem payloads_nil : payloads [] = [] := rfl
@[simp] theorem payloads_tx (buf : List Byte) (es : List Event) :
    payloads (.tx buf :: es) = payload buf ++ payloads es := rfl
@[simp] theorem payloads_wait (ms : Nat) (es : List Event) : payloads (.wait ms :: es) = payloads es := rfl
@[simp] theorem payloads_append (a b : List Event) : payloads (a ++ b) = payloads a ++ payloads b := by
  simp [payloads]
@[simp] theorem settle_zero : settle 0 = [] := rfl
@[simp] theorem txEvents_settle (ms : Nat) : txEvents (settle ms) = [] := by unfold settle; split <;> rfl
@[simp] theorem waitEvents_settle (ms : Nat) : waitEvents (settle ms) = settle ms := by unfold settle; split <;> rfl
@[simp] theorem payloads_settle (ms : Nat) : payloads (settle ms) = [] := by unfold settle; split <;> rfl

/-- `s` after the events `events`, of whose payload bytes the expander received `reached`. -/
def State.ran (s : State) (events : List Event) (reached : List Byte) : State :=
  { s with
    trace := s.trace ++ events
    transport := s.transport.drop (txEvents events).length
    txCount := s.txCount + (txEvents events).length
    delayHang := s.delayHang.map (· - (waitEvents events).length)
    port := s.port ++ reached }

section
variable (s : State) (events : List Event) (reached : List Byte)

@[simp] theorem State.ran_cfg : (s.ran events reached).cfg = s.cfg := rfl
@[simp] theorem State.ran_dcf : (s.ran events reached).dcf = s.dcf := rfl
@[simp] theorem State.ran_initStep : (s.ran events reached).initStep = s.initStep := rfl
@[simp] theorem State.ran_statuses : (s.ran events reached).statuses = s.statuses := rfl
@[simp] theorem State.ran_opPort : (s.ran events reached).opPort = s.opPort := rfl
@[simp] theorem State.ran_trace : (s.ran events reached).trace = s.trace ++ events := rfl
@[simp] theorem State.ran_port : (s.ran events reached).port = s.port ++ reached := rfl
@[simp] theorem State.readDcf_ran : (s.ran events reached).readDcf = s.readDcf := rfl

@[simp] theorem State.ran_nil : s.ran [] [] = s := by
  cases s with
  | mk cfg dcf initStep trace statuses opPort transport txCount delayHang port =>
    cases delayHang <;> simp [State.ran]

theorem State.ran_ran (events' : List Event) (reached' : List Byte) :
    (s.ran events reached).ran events' reached' = s.ran (events ++ events') (reached ++ reached') := by
  cases h : s.delayHang <;> simp [State.ran, h, Nat.add_assoc, Nat.sub_sub]

@[simp] theorem State.ran_report (st : Status) : (s.ran events reached).report st = s.after events reached st := rfl

@[simp] theorem State.replyAt_ran (k : Nat) :
    (s.ran events reached).replyAt k = s.replyAt ((txEvents events).length + k) := by
  simp [State.ran, State.replyAt, Nat.add_assoc]

theorem State.ran_writeDcf (v : Byte) : (s.ran events reached).writeDcf v = (s.writeDcf v).ran events reached := rfl
theorem State.ran_setInitStep (k : Nat) :
    (s.ran events reached).setInitStep k = (s.setInitStep k).ran events reached := rfl

end

theorem State.afterTx_eq_ran (s : State) (buf : List Byte) (r : TxReply) :
    s.afterTx buf r = s.ran [.tx buf] (delivered buf r) := by
  cases h : s.delayHang <;> simp [State.afterTx, State.ran, h]

theorem State.afterWait_eq_ran (s : State) (ms : Nat) : s.afterWait ms = s.ran [.wait ms] [] := by
  cases h : s.delayHang <;> simp [State.afterWait, State.ran, h]

theorem State.WaitsReturn.mono {s : State} {n m : Nat} (h : s.WaitsReturn n) (hm : m ≤ n) : s.WaitsReturn m :=
  fun k hk => Nat.le_trans hm (h k hk)

/-- The waits that return after some events: those left of the ones that did before. -/
theorem State.WaitsReturn.ran {s : State} {n m : Nat} {events : List Event} (h : s.WaitsReturn n)
    (hm : (waitEvents events).length + m ≤ n) (reached : List Byte) : (s.ran events reached).WaitsReturn m := by
  intro k hk
  cases hd : s.delayHang with
  | none => simp [State.ran, hd] at hk
  | some j =>
    have := h j hd
    simp [State.ran, hd] at hk
    omega

theorem State.AnswersOk.ran {s : State} {n m : Nat} {events : List Event} (h : s.AnswersOk n)
    (hm : (txEvents events).length + m ≤ n) (reached : List Byte) : (s.ran events reached).AnswersOk m := by
  intro k hk
  rw [State.replyAt_ran]
  exact h _ (by omega)

/-- `Wait(ms)` that returns. -/
theorem waitMs_ran {s : State} {ms : Nat} (h : s.WaitsReturn (settle ms).length) :
    waitMs ms s = .go (s.ran (settle ms) []) := by
  by_cases h0 : ms = 0
  · subst h0; simp
  · have hd : s.delayHang ≠ some 0 := by
      intro hc
      have := h 0 hc
      simp [settle, h0] at this
    rw [waitMs_pos h0 hd, State.afterWait_eq_ran, settle, if_neg h0]

/-- `send8` answered `ok`. -/
theorem send8_ok {s : State} (h : s.replyAt 0 = some .ok) (rs : Bool) (v : Byte) :
    send8 rs v s = .go (s.ran [.tx (frame8 s.cfg rs v)] (payload (frame8 s.cfg rs v))) := by
  rw [send8, txOrRaise_ok h, State.afterTx_eq_ran]; rfl

/-- `send8` answered `fail`. -/
theorem send8_fail {s : State} {n : Nat} (h : s.replyAt 0 = some (.fail n)) (rs : Bool) (v : Byte) :
    send8 rs v s =
      .raise .transportFailure (s.ran [.tx (frame8 s.cfg rs v)] ((payload (frame8 s.cfg rs v)).take n)) := by
  rw [send8, txOrRaise_fail h, State.afterTx_eq_ran]; rfl

/-- `send4` answered `ok`. -/
theorem send4_ok {s : State} (h : s.replyAt 0 = some .ok) (rs : Bool) (v : Byte) :
    send4 rs v s = .go (s.ran [.tx (frame4 s.cfg rs v)] (payload (frame4 s.cfg rs v))) := by
  rw [send4, txOrRaise_ok h, State.afterTx_eq_ran]; rfl

/-- `send4` answered `fail`. -/
theorem send4_fail {s : State} {n : Nat} (h : s.replyAt 0 = some (.fail n)) (rs : Bool) (v : Byte) :
    send4 rs v s =
      .raise .transportFailure (s.ran [.tx (frame4 s.cfg rs v)] ((payload (frame4 s.cfg rs v)).take n)) := by
  rw [send4, txOrRaise_fail h, State.afterTx_eq_ran]; rfl

/-- A send answered `ok` and its settle delay. -/
theorem sendThenWait_ok {s : State} {ms : Nat} (h : s.replyAt 0 = some .ok) (hw : s.WaitsReturn (settle ms).length)
    (rs : Bool) (v : Byte) :
    sendThenWait rs v ms s =
      .go (s.ran (.tx (frame8 s.cfg rs v) :: settle ms) (payload (frame8 s.cfg rs v))) := by
  rw [sendThenWait, send8_ok h, Flow.andThen_go, waitMs_ran (hw.ran (by simp) _), State.ran_ran]
  simp

/-- A send answered `fail`: no settle delay. -/
theorem sendThenWait_fail {s : State} {n : Nat} (h : s.replyAt 0 = some (.fail n)) (rs : Bool) (v : Byte) (ms : Nat) :
    sendThenWait rs v ms s =
      .raise .transportFailure (s.ran [.tx (frame8 s.cfg rs v)] ((payload (frame8 s.cfg rs v)).take n)) := by
  rw [sendThenWait, send8_fail h, Flow.andThen_raise]

/-- The DISPLAY_CONTROL command of the present flags. -/
theorem sendFlags_written {s : State} {flags : Byte} (h : s.readDcf = some flags) (ms : Nat) :
    sendFlags ms s = sendThenWait false (displayControl s.cfg flags) ms s := by
  simp [sendFlags, h]

/-! ### Several sends in a row -/

/-- Frames, each with the settle delay after it, sent one after the other. -/
def sendAll : List (List Byte × Nat) → State → Flow
  | [], s => .go s
  | (buf, ms) :: rest, s => ((txOrRaise buf s).andThen (waitMs ms)).andThen (sendAll rest)

/-- The events of `sendAll` when every answer is `ok`. -/
def eventsOf (frames : List (List Byte × Nat)) : List Event :=
  frames.flatMap fun f => .tx f.1 :: settle f.2

@[simp] theorem eventsOf_nil : eventsOf [] = [] := rfl
@[simp] theorem eventsOf_cons (f : List Byte × Nat) (rest : List (List Byte × Nat)) :
    eventsOf (f :: rest) = .tx f.1 :: (settle f.2 ++ eventsOf rest) := by
  simp [eventsOf]

@[simp] theorem txEvents_eventsOf (frames : List (List Byte × Nat)) :
    (txEvents (eventsOf frames)).length = frames.length := by
  induction frames with
  | nil => rfl
  | cons f rest ih => simp [ih]

theorem throughTx_settle (k ms : Nat) (events : List Event) :
    throughTx k (settle ms ++ events) = settle ms ++ throughTx k events := by
  unfold settle
  split
  · rfl
  · cases k <;> rfl

@[simp] theorem throughTx_zero (buf : List Byte) (events : List Event) :
    throughTx 0 (.tx buf :: events) = [.tx buf] := rfl
@[simp] theorem throughTx_succ (k : Nat) (buf : List Byte) (events : List Event) :
    throughTx (k + 1) (.tx buf :: events) = .tx buf :: throughTx k events := rfl

/-- The bytes that reached the expander of events that go on after others. -/
theorem reachedBytes_append {a b : List Event} (hb : b ≠ []) (n : Nat) :
    reachedBytes (a ++ b) n = payloads a ++ reachedBytes b n := by
  simp only [reachedBytes, List.getLast?_append_of_ne_nil a hb, List.dropLast_append_of_ne_nil hb, payloads_append]
  split <;> simp

theorem throughTx_ne_nil {k : Nat} {events : List Event} (h : events ≠ []) : throughTx k events ≠ [] := by
  cases events with
  | nil => exact absurd rfl h
  | cons e rest => cases e <;> cases k <;> simp [throughTx]

theorem txOrRaise_ran_ok {s : State} {buf : List Byte} (h : s.replyAt 0 = some .ok) :
    txOrRaise buf s = .go (s.ran [.tx buf] (payload buf)) := by
  rw [txOrRaise_ok h, State.afterTx_eq_ran]; rfl

theorem txOrRaise_ran_fail {s : State} {buf : List Byte} {n : Nat} (h : s.replyAt 0 = some (.fail n)) :
    txOrRaise buf s = .raise .transportFailure (s.ran [.tx buf] ((payload buf).take n)) := by
  rw [txOrRaise_fail h, State.afterTx_eq_ran]; rfl

theorem sendAll_ok {frames : List (List Byte × Nat)} {s : State} (ha : s.AnswersOk frames.length)
    (hw : s.WaitsReturn (waitEvents (eventsOf frames)).length) :
    sendAll frames s = .go (s.ran (eventsOf frames) (payloads (eventsOf frames))) := by
  induction frames generalizing s with
  | nil => simp [sendAll]
  | cons f rest ih =>
    obtain ⟨buf, ms⟩ := f
    simp only [eventsOf_cons, waitEvents_tx, waitEvents_append, waitEvents_settle, List.length_append] at hw
    rw [sendAll, txOrRaise_ran_ok (ha 0 (by simp)), Flow.andThen_go, waitMs_ran (hw.ran (by simp) _), Flow.andThen_go,
      State.ran_ran, ih (ha.ran (by simp; omega) _) (hw.ran (by simp) _), State.ran_ran]
    simp

theorem sendAll_fail {frames : List (List Byte × Nat)} {s : State} {k n : Nat} (hk : k < frames.length)
    (ha : s.AnswersOk k) (hf : s.replyAt k = some (.fail n))
    (hw : s.WaitsReturn (waitEvents (throughTx k (eventsOf frames))).length) :
    sendAll frames s = .raise .transportFailure
      (s.ran (throughTx k (eventsOf frames)) (reachedBytes (throughTx k (eventsOf frames)) n)) := by
  induction frames generalizing s k with
  | nil => simp at hk
  | cons f rest ih =>
    obtain ⟨buf, ms⟩ := f
    cases k with
    | zero =>
      rw [sendAll, txOrRaise_ran_fail hf, Flow.andThen_raise, Flow.andThen_raise]
      simp [reachedBytes]
    | succ k =>
      have hk' : k < rest.length := by simpa using hk
      have hne : throughTx k (eventsOf rest) ≠ [] := by
        apply throughTx_ne_nil
        cases rest with
        | nil => simp at hk'
        | cons g tl => simp
      simp only [eventsOf_cons, throughTx_succ, throughTx_settle, waitEvents_tx, waitEvents_append, waitEvents_settle,
        List.length_append] at hw ⊢
      rw [sendAll, txOrRaise_ran_ok (ha 0 (by omega)), Flow.andThen_go, waitMs_ran (hw.ran (by simp) _),
        Flow.andThen_go, State.ran_ran,
        ih hk' (ha.ran (by simp; omega) _) (by simpa [Nat.add_comm] using hf) (hw.ran (by simp) _), State.ran_ran]
      rw [← List.cons_append, reachedBytes_append hne]
      simp

/-- A send and its delay as one frame of `sendAll`. -/
theorem sendThenWait_eq_sendAll (rs : Bool) (v : Byte) (ms : Nat) (s : State) :
    sendThenWait rs v ms s = sendAll [(frame8 s.cfg rs v, ms)] s := by
  simp only [sendThenWait, send8, sendAll]
  cases (txOrRaise (frame8 s.cfg rs v) s).andThen (waitMs ms) <;> rfl

end Sys2Proof.Machine
end

