-- ==== Sys2Proof/Laws/Calls.lean ====
section
/-!
SUPPORT. The calls an operation makes of the transport and of the delay provider, in order, and what follows when they
return or one of them never does (spec R156, R165): one rule per primitive, one for sequences, one line per procedure. A
proof that a hung call stops an operation cites `Flow.Follows` of the operation's call list and unfolds nothing.
-/

namespace Sys2Proof.Machine

/-- A call of an external device. -/
inductive Call where
  /-- One `Tx`. -/
  | tx
  /-- One `Wait` of more than 0 milliseconds. -/
  | wait
  deriving DecidableEq, Repr

/-- How many calls of a list are `Tx` calls. -/
def txsIn (calls : List Call) : Nat := calls.count .tx

/-- How many are `Wait` calls. -/
def waitsIn (calls : List Call) : Nat := calls.count .wait

/-- The call of `Wait(ms)`: none for 0 (R12). -/
def waitCall (ms : Nat) : List Call := if ms = 0 then [] else [.wait]

/-- The next calls of `s`, in number and kind those of the list, return, the `Tx` calls with `ok`. -/
def State.Returns (s : State) (calls : List Call) : Prop :=
  s.AnswersOk (txsIn calls) ∧ s.WaitsReturn (waitsIn calls)

/-- The call after those of the list, of the given kind, never returns. -/
def State.Hangs (s : State) (before : List Call) : Call → Prop
  | .tx => s.replyAt (txsIn before) = none
  | .wait => s.delayHang = some (waitsIn before)

/-- The fault of a call that never returns (R165). -/
def Call.fault : Call → Fault
  | .tx => .transportNeverReturns
  | .wait => .delayNeverReturns

/-- `t` is what the calls of the list leave of `s`, as far as further calls go. -/
structure State.Leaves (s : State) (calls : List Call) (t : State) : Prop where
  cfg : t.cfg = s.cfg
  reply : ∀ k, t.replyAt k = s.replyAt (txsIn calls + k)
  hang : t.delayHang = s.delayHang.map (· - waitsIn calls)

/-- `f`, started in `s`, makes exactly these calls: when they all return it goes on, in a state where `P` holds, and at the
first one that never returns it is stuck. -/
structure Flow.Follows (s : State) (calls : List Call) (P : State → Prop) (f : Flow) : Prop where
  goes : s.Returns calls → ∃ t, f = .go t ∧ s.Leaves calls t ∧ P t
  sticks : ∀ before c after, calls = before ++ c :: after → s.Returns before → s.Hangs before c → f = .stuck c.fault

@[simp] theorem txsIn_nil : txsIn [] = 0 := rfl
@[simp] theorem waitsIn_nil : waitsIn [] = 0 := rfl
@[simp] theorem txsIn_append (a b : List Call) : txsIn (a ++ b) = txsIn a + txsIn b := by simp [txsIn]
@[simp] theorem waitsIn_append (a b : List Call) : waitsIn (a ++ b) = waitsIn a + waitsIn b := by simp [waitsIn]
@[simp] theorem txsIn_tx (b : List Call) : txsIn (.tx :: b) = txsIn b + 1 := by simp [txsIn]
@[simp] theorem txsIn_wait (b : List Call) : txsIn (.wait :: b) = txsIn b := by simp [txsIn]
@[simp] theorem waitsIn_tx (b : List Call) : waitsIn (.tx :: b) = waitsIn b := by simp [waitsIn]
@[simp] theorem waitsIn_wait (b : List Call) : waitsIn (.wait :: b) = waitsIn b + 1 := by simp [waitsIn]
@[simp] theorem txsIn_waitCall (ms : Nat) : txsIn (waitCall ms) = 0 := by unfold waitCall; split <;> rfl
@[simp] theorem waitCall_zero : waitCall 0 = [] := rfl

/-! ### Returning and hanging, over lists put together -/

theorem State.Leaves.refl (s : State) : s.Leaves [] s :=
  ⟨rfl, by simp, by cases s.delayHang <;> simp⟩

theorem State.Leaves.trans {s t u : State} {a b : List Call} (h : s.Leaves a t) (h' : t.Leaves b u) :
    s.Leaves (a ++ b) u :=
  ⟨h'.cfg.trans h.cfg, fun k => by simp [h'.reply, h.reply, Nat.add_assoc],
    by rw [h'.hang, h.hang]; cases s.delayHang <;> simp [Nat.sub_sub]⟩

/-- What returns before further calls do, returns by itself. -/
theorem State.Returns.left {s : State} {a b : List Call} (h : s.Returns (a ++ b)) : s.Returns a :=
  ⟨fun k hk => h.1 k (by simp; omega), h.2.mono (by simp)⟩

/-- The calls left return when all of them do. -/
theorem State.Returns.right {s t : State} {a b : List Call} (h : s.Returns (a ++ b)) (ht : s.Leaves a t) : t.Returns b := by
  refine ⟨fun k hk => ?_, fun n hn => ?_⟩
  · rw [ht.reply]; exact h.1 _ (by simp; omega)
  · cases hd : s.delayHang with
    | none => simp [ht.hang, hd] at hn
    | some d =>
      have := h.2 d hd
      simp [ht.hang, hd] at hn
      simp at this
      omega

/-- The call that hangs, seen from where the calls before it leave the machine. -/
theorem State.Hangs.right {s t : State} {a b : List Call} {c : Call} (h : s.Hangs (a ++ b) c) (ht : s.Leaves a t) :
    t.Hangs b c := by
  cases c with
  | tx => simpa [Hangs, ht.reply] using h
  | wait =>
    have hd : s.delayHang = some (waitsIn (a ++ b)) := h
    simp [Hangs, ht.hang, hd]

/-! ### The rule of each primitive -/

variable {s t : State} {P P' : State → Prop} {calls calls' : List Call}

theorem Flow.Follows.go (h : P s) : (Flow.go s).Follows s [] P :=
  ⟨fun _ => ⟨s, rfl, .refl s, h⟩, fun before _ _ he => by cases before <;> cases he⟩

/-- One piece after another makes the calls of both. -/
theorem Flow.Follows.andThen {f : Flow} {g : State → Flow} (hf : f.Follows s calls P)
    (hg : ∀ t, t.cfg = s.cfg → P t → (g t).Follows t calls' P') : (f.andThen g).Follows s (calls ++ calls') P' := by
  refine ⟨fun h => ?_, fun before c after he hr hh => ?_⟩
  · obtain ⟨t, rfl, hl, hp⟩ := hf.goes h.left
    obtain ⟨u, hu, hl', hp'⟩ := (hg t hl.cfg hp).goes (h.right hl)
    exact ⟨u, hu, hl.trans hl', hp'⟩
  · rcases List.append_eq_append_iff.1 he with ⟨rest, rfl, hrest⟩ | ⟨rest, hcalls, hrest⟩
    · obtain ⟨t, rfl, hl, hp⟩ := hf.goes hr.left
      exact (hg t hl.cfg hp).sticks rest c after hrest (hr.right hl) (hh.right hl)
    · cases rest with
      | nil =>
        simp only [List.append_nil] at hcalls
        subst hcalls
        obtain ⟨t, rfl, hl, hp⟩ := hf.goes hr
        exact (hg t hl.cfg hp).sticks [] c after hrest.symm (State.Returns.right (b := []) (by simpa using hr) hl)
          (State.Hangs.right (b := []) (by simpa using hh) hl)
      | cons d rest =>
        rw [List.cons_append] at hrest
        obtain ⟨rfl, -⟩ := List.cons.inj hrest
        rw [hf.sticks before c rest hcalls hr hh]
        rfl

theorem Flow.Follows.mono {f : Flow} (h : f.Follows s calls P) (hp : ∀ t, P t → P' t) : f.Follows s calls P' :=
  ⟨fun hr => let ⟨t, ht, hl, h⟩ := h.goes hr; ⟨t, ht, hl, hp t h⟩, h.sticks⟩

/-- A write to a register before the first call makes no call. -/
theorem Flow.Follows.of_eq {f : Flow} (h : f.Follows t calls P) (hc : t.cfg = s.cfg) (hr : ∀ k, t.replyAt k = s.replyAt k)
    (hd : t.delayHang = s.delayHang) : f.Follows s calls P := by
  have hret : ∀ calls, s.Returns calls → t.Returns calls := fun calls h =>
    ⟨fun k hk => (hr k).trans (h.1 k hk), fun n hn => h.2 n (hd ▸ hn)⟩
  refine ⟨fun h' => ?_, fun before c after he h' hh => h.sticks before c after he (hret _ h') ?_⟩
  · obtain ⟨u, hu, hl, hp⟩ := h.goes (hret _ h')
    exact ⟨u, hu, ⟨hl.cfg.trans hc, fun k => (hl.reply k).trans (hr _), by rw [hl.hang, hd]⟩, hp⟩
  · cases c with
    | tx => exact (hr _).trans hh
    | wait => exact hd.trans hh

theorem txOrRaise_follows (buf : List Byte) (h : ∀ r, P (s.afterTx buf r)) : (txOrRaise buf s).Follows s [.tx] P := by
  refine ⟨fun hr => ?_, fun before c after he _ hh => ?_⟩
  · refine ⟨_, txOrRaise_ok (hr.1 0 (by simp)), ⟨rfl, fun k => ?_, ?_⟩, h .ok⟩
    · simp [Nat.add_comm]
    · cases hd : s.delayHang <;> simp [hd]
  · cases before with
    | nil => cases he; exact txOrRaise_never hh
    | cons d rest => cases rest <;> cases he

theorem waitMs_follows (ms : Nat) (h0 : P s) (h : P (s.afterWait ms)) : (waitMs ms s).Follows s (waitCall ms) P := by
  by_cases hms : ms = 0
  · subst hms; exact .go h0
  · rw [waitCall, if_neg hms]
    refine ⟨fun hr => ?_, fun before c after he _ hh => ?_⟩
    · have hd : s.delayHang ≠ some 0 := fun hc => by simpa using hr.2 0 hc
      exact ⟨_, waitMs_pos hms hd, ⟨rfl, by simp, rfl⟩, h⟩
    · cases before with
      | nil => cases he; exact waitMs_never hms hh
      | cons d rest => cases rest <;> cases he

/-! ### The procedures -/

/-- That DCF is written is all a procedure has to hand on. -/
abbrev State.Written (s : State) : Prop := s.dcf ≠ none

theorem send8_follows (rs : Bool) (v : Byte) (s : State) : (send8 rs v s).Follows s [.tx] (fun t => t.dcf = s.dcf) :=
  txOrRaise_follows _ fun _ => rfl

theorem sendThenWait_follows (rs : Bool) (v : Byte) (ms : Nat) (s : State) :
    (sendThenWait rs v ms s).Follows s (.tx :: waitCall ms) (fun t => t.dcf = s.dcf) :=
  (send8_follows rs v s).andThen fun _ _ h => waitMs_follows ms h h

theorem sendFlags_follows (ms : Nat) (h : s.Written) :
    (sendFlags ms s).Follows s (.tx :: waitCall ms) (fun t => t.dcf = s.dcf) := by
  obtain ⟨d, hd⟩ := Option.ne_none_iff_exists'.1 h
  rw [sendFlags_written (flags := d &&& dcfMask s.cfg) (by simp [State.readDcf, hd])]
  exact sendThenWait_follows _ _ _ s

/-- A toggle that finds DCF written (R130). -/
theorem toggle_follows (m : Byte) (b : OnOff) (h : s.Written) :
    (toggle m b s).Follows s (.tx :: waitCall s.cfg.tToggle) State.Written := by
  obtain ⟨d, hd⟩ := Option.ne_none_iff_exists'.1 h
  simp only [toggle, State.readDcf, hd, Option.map_some]
  refine Flow.Follows.of_eq (t := s.writeDcf (withField m b (d &&& dcfMask s.cfg))) ?_ rfl (fun _ => rfl) rfl
  exact (sendFlags_follows _ (by simp [State.Written])).mono fun t ht => by simp [State.Written, ht]

/-- WRITESTRING makes one `Tx` call for each character (R152). -/
theorem sendChars_follows (chars : List Byte) (s : State) :
    (sendChars false chars s).Follows s (List.replicate chars.length .tx) (fun _ => True) := by
  induction chars generalizing s with
  | nil => exact .go trivial
  | cons ch rest ih =>
    refine ⟨fun h => ?_, fun before c after he hr hh => ?_⟩
    · have h1 : s.Returns ([.tx] ++ List.replicate rest.length .tx) := h
      have h0 : s.replyAt 0 = some .ok := h.1 0 (by simp [List.replicate_succ])
      have hl : s.Leaves [.tx] (s.afterTx (frame8 s.cfg true ch) .ok) :=
        ⟨rfl, fun k => by simp [Nat.add_comm], by cases hd : s.delayHang <;> simp [hd]⟩
      obtain ⟨t, ht, hl', -⟩ := (ih _).goes (h1.right hl)
      refine ⟨t, ?_, hl.trans hl', trivial⟩
      simpa [sendChars, transmit, h0] using ht
    · cases before with
      | nil =>
        cases he
        simp [sendChars, transmit, show s.replyAt 0 = none from hh, Call.fault]
      | cons d before =>
        rw [List.length_cons, List.replicate_succ, List.cons_append] at he
        obtain ⟨rfl, he'⟩ := List.cons.inj he
        have h1 : s.Returns ([.tx] ++ before) := hr
        have h0 : s.replyAt 0 = some .ok := hr.1 0 (by simp)
        have hl : s.Leaves [.tx] (s.afterTx (frame8 s.cfg true ch) .ok) :=
          ⟨rfl, fun k => by simp [Nat.add_comm], by cases hd : s.delayHang <;> simp [hd]⟩
        have := (ih _).sticks before c after he' (h1.right hl) (State.Hangs.right (a := [.tx]) hh hl)
        simpa [sendChars, transmit, h0] using this

/-! ### INIT -/

/-- The calls of frames sent one after the other, each with its delay. -/
def sendCalls (delays : List Nat) : List Call := delays.flatMap fun ms => .tx :: waitCall ms

@[simp] theorem sendCalls_nil : sendCalls [] = [] := rfl
@[simp] theorem sendCalls_cons (ms : Nat) (rest : List Nat) :
    sendCalls (ms :: rest) = .tx :: (waitCall ms ++ sendCalls rest) := by simp [sendCalls]

/-- A step's mark (R24) makes no call. -/
theorem completeStep_follows (k : Nat) (s : State) : (completeStep k s).Follows s [] (fun t => t.dcf = s.dcf) :=
  .of_eq (t := s.setInitStep k) (.go rfl) rfl (fun _ => rfl) rfl

theorem Flow.Follows.thenMark {f : Flow} {d : Option Byte} (h : f.Follows s calls fun t => t.dcf = d) (k : Nat) :
    (f.andThen (completeStep k)).Follows s calls fun t => t.dcf = d := by
  simpa using h.andThen fun t _ ht => (completeStep_follows k t).mono fun _ hu => hu.trans ht

/-- INIT makes a `Wait` call and then nine `Tx` calls, each with the delay after it (R110 to R118, R121). -/
theorem initSequence_follows (s : State) :
    (initSequence s).Follows s
      (waitCall s.cfg.tPowerOn ++ sendCalls [s.cfg.tInit1, s.cfg.tInit2, s.cfg.tInit3, s.cfg.tInit4Bit, s.cfg.tFuncSet,
        s.cfg.tInitDoff, s.cfg.tInitClear, s.cfg.tEntry, s.cfg.tInitDon]) State.Written := by
  have any : ∀ {u : State} {calls : List Call} {Q : State → Prop} {f : Flow}, f.Follows u calls Q →
      f.Follows u calls fun _ => True := fun h => h.mono fun _ _ => trivial
  have h1 : (initStep1 (s.setInitStep 0)).Follows s (waitCall s.cfg.tPowerOn) fun _ => True :=
    .of_eq (t := s.setInitStep 0) (any ((waitMs_follows (s := s.setInitStep 0) (P := fun t => t.dcf = s.dcf) _ rfl
      rfl).thenMark 1)) rfl (fun _ => rfl) rfl
  have h2 : ∀ t : State, t.cfg = s.cfg →
      (initStep2 t).Follows t (sendCalls [s.cfg.tInit1, s.cfg.tInit2, s.cfg.tInit3]) fun _ => True := by
    intro t ht
    have := ((sendThenWait_follows false t.cfg.cmdStartInit t.cfg.tInit1 t).andThen fun u _ hu =>
      (sendThenWait_follows false t.cfg.cmdStartInit t.cfg.tInit2 u).mono fun _ hv => hv.trans hu).andThen fun u _ hu =>
      (sendThenWait_follows false t.cfg.cmdStartInit t.cfg.tInit3 u).mono fun _ hv => hv.trans hu
    rw [← ht]
    simpa [initStep2] using any (this.thenMark 2)
  have h3 : ∀ t : State, t.cfg = s.cfg → (initStep3 t).Follows t (sendCalls [s.cfg.tInit4Bit]) fun _ => True := by
    intro t ht
    have := (txOrRaise_follows (s := t) (P := fun u => u.dcf = t.dcf) (frame4 t.cfg false t.cfg.cmd4Bit) fun _ => rfl).andThen
      fun u _ hu => waitMs_follows (P := fun u => u.dcf = t.dcf) t.cfg.tInit4Bit hu hu
    rw [← ht]
    simpa [initStep3, send4] using any (this.thenMark 3)
  have h4 : ∀ t : State, t.cfg = s.cfg → (initStep4 t).Follows t (sendCalls [s.cfg.tFuncSet]) fun _ => True := by
    intro t ht
    rw [← ht]
    simpa [initStep4] using any ((sendThenWait_follows false t.cfg.cmdFunctionSet t.cfg.tFuncSet t).thenMark 4)
  have flags : ∀ (t : State) (v : Byte) (ms k : Nat),
      ((sendFlags ms (t.writeDcf v)).andThen (completeStep k)).Follows t (sendCalls [ms]) State.Written := by
    intro t v ms k
    refine .of_eq (t := t.writeDcf v) ?_ rfl (fun _ => rfl) rfl
    simpa using ((sendFlags_follows ms (s := t.writeDcf v) (by simp [State.Written])).thenMark k).mono
      fun u hu => by simp [State.Written, hu]
  have h5 : ∀ t : State, t.cfg = s.cfg → (initStep5 t).Follows t (sendCalls [s.cfg.tInitDoff]) State.Written := by
    intro t ht
    rw [← ht]
    exact flags t _ _ 5
  have plain : ∀ (t : State) (v : Byte) (ms k : Nat), t.Written →
      ((sendThenWait false v ms t).andThen (completeStep k)).Follows t (sendCalls [ms]) State.Written := by
    intro t v ms k hw
    simpa using ((sendThenWait_follows false v ms t).thenMark k).mono fun u hu => by simpa [State.Written, hu] using hw
  have h6 : ∀ t : State, t.cfg = s.cfg → t.Written →
      (initStep6 t).Follows t (sendCalls [s.cfg.tInitClear]) State.Written := by
    intro t ht hw
    rw [← ht]
    exact plain t _ _ 6 hw
  have h7 : ∀ t : State, t.cfg = s.cfg → t.Written → (initStep7 t).Follows t (sendCalls [s.cfg.tEntry]) State.Written := by
    intro t ht hw
    rw [← ht]
    exact plain t _ _ 7 hw
  have h8 : ∀ t : State, t.cfg = s.cfg → t.Written → (initStep8 t).Follows t (sendCalls [s.cfg.tInitDon]) State.Written := by
    intro t ht hw
    obtain ⟨d, hd⟩ := Option.ne_none_iff_exists'.1 hw
    simp only [initStep8, State.readDcf, hd, Option.map_some]
    rw [← ht]
    exact flags t _ _ 8
  have := ((((((h1.andThen fun t ht _ => h2 t ht).andThen fun t ht _ => h3 t ht).andThen fun t ht _ => h4 t ht).andThen
    fun t ht _ => h5 t ht).andThen h6).andThen h7).andThen h8
  simpa [initSequence] using this

end Sys2Proof.Machine
end

