-- ==== Sys2Proof/Laws/InitSequence.lean ====
section
/-!
SUPPORT. Each step of INIT (spec R111 to R118) as the frames it sends, between what it writes before and the mark it sets
after. A proof about INIT, complete or cut off (R119), chains `sendAll_ok` and `sendAll_fail` over these.
-/

namespace Sys2Proof.Machine

@[simp] theorem State.answersOk_setInitStep (s : State) (k n : Nat) : (s.setInitStep k).AnswersOk n ↔ s.AnswersOk n :=
  Iff.rfl
@[simp] theorem State.answersOk_writeDcf (s : State) (v : Byte) (n : Nat) : (s.writeDcf v).AnswersOk n ↔ s.AnswersOk n :=
  Iff.rfl
@[simp] theorem State.waitsReturn_setInitStep (s : State) (k n : Nat) :
    (s.setInitStep k).WaitsReturn n ↔ s.WaitsReturn n := Iff.rfl
@[simp] theorem State.waitsReturn_writeDcf (s : State) (v : Byte) (n : Nat) :
    (s.writeDcf v).WaitsReturn n ↔ s.WaitsReturn n := Iff.rfl

theorem dMask_and_dcfMask (c : Config) : c.dMask &&& dcfMask c = c.dMask := by
  ext i
  simp +contextual [dcfMask]

/-- The frames of a step and the mark it sets (R24, R110). -/
def sendMark (frames : List (List Byte × Nat)) (k : Nat) (s : State) : Flow :=
  (sendAll frames s).andThen (completeStep k)

theorem andThen_assoc (f : Flow) (g h : State → Flow) :
    (f.andThen g).andThen h = f.andThen fun s => (g s).andThen h := by
  cases f <;> rfl

/-- The frames of step 2 (R112). -/
def startFrames (c : Config) : List (List Byte × Nat) :=
  [(frame8 c false c.cmdStartInit, c.tInit1), (frame8 c false c.cmdStartInit, c.tInit2),
    (frame8 c false c.cmdStartInit, c.tInit3)]

/-- A `Tx` does not change the configuration. -/
theorem txOrRaise_cfg {buf : List Byte} {s t : State} (h : txOrRaise buf s = .go t) : t.cfg = s.cfg := by
  unfold txOrRaise transmit at h
  cases hr : s.replyAt 0 with
  | none => simp [hr] at h
  | some r => cases r with
    | ok => simp [hr] at h; subst h; rfl
    | fail n => simp [hr] at h

theorem waitMs_cfg {ms : Nat} {s t : State} (h : waitMs ms s = .go t) : t.cfg = s.cfg := by
  unfold waitMs at h
  split at h
  · cases h; rfl
  · split at h
    · cases h
    · cases h; rfl

theorem sendThenWait_cfg {rs : Bool} {v : Byte} {ms : Nat} {s t : State} (h : sendThenWait rs v ms s = .go t) :
    t.cfg = s.cfg := by
  unfold sendThenWait send8 at h
  cases h1 : txOrRaise (frame8 s.cfg rs v) s with
  | go u =>
    rw [h1, Flow.andThen_go] at h
    rw [waitMs_cfg h, txOrRaise_cfg h1]
  | raise st u => rw [h1] at h; cases h
  | stuck e => rw [h1] at h; cases h

/-- Two pieces of pseudocode that agree on every state the first part hands on. -/
theorem andThen_congr {f : Flow} {g g' : State → Flow} (h : ∀ s, f = .go s → g s = g' s) :
    f.andThen g = f.andThen g' := by
  cases f with
  | go s => exact h s rfl
  | raise st s => rfl
  | stuck e => rfl

theorem initStep1_eq (s : State) : initStep1 s = (waitMs s.cfg.tPowerOn s).andThen (completeStep 1) := rfl

theorem initStep2_eq (s : State) : initStep2 s = sendMark (startFrames s.cfg) 2 s := by
  have step : ∀ (t : State) (v : Byte) (ms : Nat), t.cfg = s.cfg →
      sendThenWait false v ms t = (txOrRaise (frame8 s.cfg false v) t).andThen (waitMs ms) := by
    intro t v ms ht
    rw [sendThenWait, send8, ht]
  simp only [initStep2, sendMark, startFrames, sendAll, andThen_assoc]
  rw [step s _ _ rfl, andThen_assoc]
  refine andThen_congr fun t ht => andThen_congr fun u hu => ?_
  have hc : u.cfg = s.cfg := by rw [waitMs_cfg hu, txOrRaise_cfg ht]
  rw [step u _ _ hc, andThen_assoc]
  refine andThen_congr fun t' ht' => andThen_congr fun u' hu' => ?_
  have hc' : u'.cfg = s.cfg := by rw [waitMs_cfg hu', txOrRaise_cfg ht', hc]
  rw [step u' _ _ hc', andThen_assoc]
  rfl

theorem initStep3_eq (s : State) :
    initStep3 s = sendMark [(frame4 s.cfg false s.cfg.cmd4Bit, s.cfg.tInit4Bit)] 3 s := by
  simp only [initStep3, sendMark, sendAll, send4, andThen_assoc]
  rfl

theorem initStep4_eq (s : State) :
    initStep4 s = sendMark [(frame8 s.cfg false s.cfg.cmdFunctionSet, s.cfg.tFuncSet)] 4 s := by
  rw [initStep4, sendThenWait_eq_sendAll]; rfl

theorem initStep5_eq (s : State) :
    initStep5 s = sendMark [(frame8 s.cfg false s.cfg.cmdDisplayControl, s.cfg.tInitDoff)] 5 (s.writeDcf 0x00#8) := by
  rw [initStep5, sendFlags_written (flags := 0x00#8) (by simp), sendThenWait_eq_sendAll]
  simp [displayControl, sendMark]

theorem initStep6_eq (s : State) :
    initStep6 s = sendMark [(frame8 s.cfg false s.cfg.cmdClear, s.cfg.tInitClear)] 6 s := by
  rw [initStep6, sendThenWait_eq_sendAll]; rfl

theorem initStep7_eq (s : State) :
    initStep7 s = sendMark [(frame8 s.cfg false s.cfg.cmdEntryMode, s.cfg.tEntry)] 7 s := by
  rw [initStep7, sendThenWait_eq_sendAll]; rfl

/-- Step 8 (R118), from flags that are all off, as step 5 leaves them. -/
theorem initStep8_eq {s : State} (h : s.readDcf = some 0x00#8) :
    initStep8 s =
      sendMark [(frame8 s.cfg false (s.cfg.cmdDisplayControl ||| s.cfg.dMask), s.cfg.tInitDon)] 8
        (s.writeDcf s.cfg.dMask) := by
  simp only [initStep8, h, BitVec.zero_or]
  rw [sendFlags_written (flags := s.cfg.dMask) (by simp [dMask_and_dcfMask]), sendThenWait_eq_sendAll]
  rfl

end Sys2Proof.Machine
end

