-- ==== Sys2Proof/Laws/Kept.lean ====
section
/-!
SUPPORT. One rule for what operations keep: a property of states that each primitive effect an operation is made of keeps,
the operation keeps. Frames and invariants are instances; none of them unfolds an operation.
-/

namespace Sys2Proof.Machine

/-- `R` is kept by the effects every operation may have: a full frame, a settle delay, a status. -/
structure KeptBySends (R : State → Prop) : Prop where
  tx : ∀ (s : State) (rs : Bool) (v : Byte) (r : TxReply), R s → R (s.afterTx (frame8 s.cfg rs v) r)
  wait : ∀ (s : State) (ms : Nat), ms ≠ 0 → R s → R (s.afterWait ms)
  report : ∀ (s : State) (st : Status), R s → R (s.report st)

/-- `R` is also kept by what a toggle writes. -/
structure KeptByToggles (R : State → Prop) : Prop extends KeptBySends R where
  writeDcf : ∀ (s : State) (v : Byte), R s → R (s.writeDcf v)

/-- `R` is also kept by what INIT writes, and by its nibble frame. A mark of 5 or more is set only when DCF is written. -/
structure KeptByInit (R : State → Prop) : Prop extends KeptByToggles R where
  tx4 : ∀ (s : State) (r : TxReply), R s → R (s.afterTx (frame4 s.cfg false s.cfg.cmd4Bit) r)
  mark : ∀ (s : State) (k : Nat), k ≤ 8 → (5 ≤ k → s.dcf ≠ none) → R s → R (s.setInitStep k)

variable {R : State → Prop}

/-- The flow hands on, and raises in, states where `R` holds. -/
abbrev Flow.Keeps (R : State → Prop) (f : Flow) : Prop := f.Holds R (fun _ => R)

theorem Flow.Keeps.andThen {f : Flow} {g : State → Flow} (hf : f.Keeps R) (hg : ∀ s, R s → (g s).Keeps R) :
    (f.andThen g).Keeps R :=
  Flow.Holds.andThen hf hg

theorem KeptBySends.send8 (h : KeptBySends R) (rs : Bool) (v : Byte) {s : State} (hs : R s) : (send8 rs v s).Keeps R :=
  txOrRaise_holds (fun _ => h.tx s rs v .ok hs) (fun n _ => h.tx s rs v (.fail n) hs)

theorem KeptBySends.waitMs (h : KeptBySends R) (ms : Nat) {s : State} (hs : R s) : (waitMs ms s).Keeps R :=
  waitMs_holds (fun _ => hs) (fun h0 => h.wait s ms h0 hs)

theorem KeptBySends.sendThenWait (h : KeptBySends R) (rs : Bool) (v : Byte) (ms : Nat) {s : State} (hs : R s) :
    (sendThenWait rs v ms s).Keeps R :=
  (h.send8 rs v hs).andThen fun _ ht => h.waitMs ms ht

theorem KeptBySends.sendFlags (h : KeptBySends R) (ms : Nat) {s : State} (hs : R s) : (sendFlags ms s).Keeps R := by
  unfold Machine.sendFlags
  cases s.readDcf with
  | none => exact hs
  | some flags => exact h.sendThenWait _ _ _ hs

theorem KeptBySends.sendChars (h : KeptBySends R) (chars : List Byte) {failed : Bool} {s : State} (hs : R s) :
    (sendChars failed chars s).Keeps R := by
  have hend : ∀ (failed : Bool) (t : State), R t → (endString failed t).Keeps R := by
    intro failed t ht
    cases failed <;> exact ht
  induction chars generalizing failed s with
  | nil => exact hend failed s hs
  | cons ch rest ih =>
    simp only [Machine.sendChars, transmit]
    cases s.replyAt 0 with
    | none => trivial
    | some r =>
      have ht := h.tx s true ch r hs
      cases r with
      | ok => exact ih ht
      | fail n =>
        simp only
        split
        · exact hend true _ ht
        · exact ih ht

theorem KeptBySends.perform (h : KeptBySends R) {op : State → Flow} {s s' : State} (hop : (op s).Keeps R)
    (hn : perform op s = .next s') : R s' :=
  perform_holds hn (Flow.Holds.mono hop (fun t ht => h.report t _ ht) (fun _ t ht => h.report t _ ht))

theorem KeptBySends.positionCursor (h : KeptBySends R) (row col : Byte) {s : State} (hs : R s) :
    (positionCursor row col s).Keeps R := by
  unfold Machine.positionCursor
  cases memReadRowTab s.cfg (rowIndex s.cfg row) with
  | none => trivial
  | some base => exact h.send8 _ _ hs

/-- CLEAR, SETCURSOR, SENDDATA, SENDCMD and WRITESTRING keep what sends keep. -/
theorem KeptBySends.exec (h : KeptBySends R) {i : Instr} {s s' : State} (hi : toggleMask s.cfg i = none)
    (hinit : i ≠ .init) (hs : R s) (hn : exec i s = .next s') : R s' := by
  cases i with
  | init => exact absurd rfl hinit
  | clear => exact h.perform (h.sendThenWait _ _ _ hs) hn
  | setCursor row col => exact h.perform (h.positionCursor row col hs) hn
  | sendData v => exact h.perform (h.send8 _ _ hs) hn
  | sendCmd v => exact h.perform (h.send8 _ _ hs) hn
  | setDisplay b => cases hi
  | setCursorDisplay b => cases hi
  | setCursorBlink b => cases hi
  | writeString chars => exact h.perform (h.sendChars chars hs) hn

theorem KeptByToggles.toggle (h : KeptByToggles R) (m : Byte) (b : OnOff) {s : State} (hs : R s) :
    (toggle m b s).Keeps R := by
  unfold Machine.toggle
  cases s.readDcf with
  | none => exact hs
  | some flags => exact h.sendFlags _ (h.writeDcf s _ hs)

/-- Every operation but INIT keeps what sends and DCF writes keep. -/
theorem KeptByToggles.exec (h : KeptByToggles R) {i : Instr} {s s' : State} (hinit : i ≠ .init) (hs : R s)
    (hn : exec i s = .next s') : R s' := by
  cases i with
  | setDisplay b => exact h.perform (h.toggle _ b hs) hn
  | setCursorDisplay b => exact h.perform (h.toggle _ b hs) hn
  | setCursorBlink b => exact h.perform (h.toggle _ b hs) hn
  | _ => exact h.toKeptBySends.exec rfl hinit hs hn

/-- A property kept, and DCF written: kept together by everything after INIT's step 5. -/
theorem KeptByInit.written (h : KeptByInit R) : KeptByInit fun s => R s ∧ s.dcf ≠ none where
  tx s rs v r hs := ⟨h.tx s rs v r hs.1, hs.2⟩
  wait s ms h0 hs := ⟨h.wait s ms h0 hs.1, hs.2⟩
  report s st hs := ⟨h.report s st hs.1, hs.2⟩
  writeDcf s v hs := ⟨h.writeDcf s v hs.1, by simp⟩
  tx4 s r hs := ⟨h.tx4 s r hs.1, hs.2⟩
  mark s k hk hd hs := ⟨h.mark s k hk hd hs.1, hs.2⟩

theorem KeptByInit.initSequence (h : KeptByInit R) {s : State} (hs : R s) : (initSequence s).Keeps R := by
  have w := h.written
  have mark : ∀ (k : Nat) (t : State), k ≤ 4 → R t → (completeStep k t).Keeps R := fun k t hk ht =>
    h.mark t k (by omega) (by omega) ht
  have markW : ∀ (k : Nat) (t : State), k ≤ 8 → R t ∧ t.dcf ≠ none →
      (completeStep k t).Keeps fun s => R s ∧ s.dcf ≠ none := fun k t hk ht => w.mark t k hk (fun _ => ht.2) ht
  have h4 : ((((initStep1 (s.setInitStep 0)).andThen initStep2).andThen initStep3).andThen initStep4).Keeps R := by
    refine Flow.Keeps.andThen (Flow.Keeps.andThen (Flow.Keeps.andThen ?_ fun t ht => ?_) fun t ht => ?_) fun t ht => ?_
    · exact (h.waitMs _ (h.mark s 0 (by omega) (by omega) hs)).andThen fun t ht => mark 1 t (by omega) ht
    · exact (((h.sendThenWait _ _ _ ht).andThen fun u hu => h.sendThenWait _ _ _ hu).andThen fun u hu =>
        h.sendThenWait _ _ _ hu).andThen fun u hu => mark 2 u (by omega) hu
    · exact ((txOrRaise_holds (fun _ => h.tx4 t .ok ht) (fun n _ => h.tx4 t (.fail n) ht)).andThen fun u hu =>
        h.waitMs _ hu).andThen fun u hu => mark 3 u (by omega) hu
    · exact (h.sendThenWait _ _ _ ht).andThen fun u hu => mark 4 u (by omega) hu
  have h5 : ∀ t, R t → (initStep5 t).Holds (fun u => R u ∧ u.dcf ≠ none) (fun _ => R) := fun t ht =>
    Flow.Holds.mono
      (Flow.Holds.andThen (w.sendFlags _ ⟨h.writeDcf t 0x00#8 ht, by simp⟩) fun u hu => markW 5 u (by omega) hu)
      (fun _ hu => hu) (fun _ _ hu => hu.1)
  have weaken : ∀ {f : Flow}, (f.Keeps fun u => R u ∧ u.dcf ≠ none) →
      f.Holds (fun u => R u ∧ u.dcf ≠ none) (fun _ => R) := fun hf =>
    Flow.Holds.mono hf (fun _ hu => hu) (fun _ _ hu => hu.1)
  refine Flow.Holds.mono (P := fun u => R u ∧ u.dcf ≠ none) (Q := fun _ => R) ?_ (fun _ hu => hu.1) (fun _ _ hu => hu)
  refine Flow.Holds.andThen (Flow.Holds.andThen (Flow.Holds.andThen (Flow.Holds.andThen h4 h5) fun t ht => weaken ?_)
    fun t ht => weaken ?_) fun t ht => weaken ?_
  · exact Flow.Keeps.andThen (w.sendThenWait _ _ _ ht) fun u hu => markW 6 u (by omega) hu
  · exact Flow.Keeps.andThen (w.sendThenWait _ _ _ ht) fun u hu => markW 7 u (by omega) hu
  · unfold initStep8
    cases t.readDcf with
    | none => exact ht
    | some flags =>
      exact Flow.Keeps.andThen (w.sendFlags _ ⟨h.writeDcf t _ ht.1, by simp⟩) fun u hu => markW 8 u (by omega) hu

/-- Every operation keeps what all these effects keep. -/
theorem KeptByInit.exec (h : KeptByInit R) {i : Instr} {s s' : State} (hs : R s) (hn : exec i s = .next s') : R s' := by
  by_cases hi : i = .init
  · subst hi
    exact h.perform (h.initSequence hs) hn
  · exact h.toKeptByToggles.exec hi hs hn

/-- Every step keeps it too, if taking bytes off the operation port does. -/
theorem KeptByInit.step (h : KeptByInit R) (hport : ∀ (s : State) (rest : List Byte), R s → R (s.consume rest))
    {s s' : State} (hs : R s) (hn : step s = .next s') : R s' := by
  rcases step_cases s with ⟨i, rest, -, hst⟩ | ⟨why, rest, -, hst⟩ | ⟨-, hst⟩
  · exact h.exec (hport s rest hs) (hst.symm.trans hn)
  · exact perform_holds (op := fun s => .raise .illegalOperation (s.consume rest)) (hst.symm.trans hn)
      (h.report _ _ (hport s rest hs))
  · rw [hst, idle] at hn
    split at hn
    · cases hn; exact hs
    · cases hn

end Sys2Proof.Machine
end

