-- ==== Sys2Proof/Laws/Masks.lean ====
section
/-!
SUPPORT. What an admitted configuration (spec R8) says of its masks, as bit algebra: single bits, pairwise disjoint, the
control lines away from the nibble, the flags away from the DISPLAY_CONTROL opcode. Proofs about packed bytes and DCF
cite these instead of splitting the masks into cases.
-/

namespace Sys2Proof

theorem oneBit_cases {m : Byte} (h : oneBit m = true) :
    m = 0x01#8 ∨ m = 0x02#8 ∨ m = 0x04#8 ∨ m = 0x08#8 ∨ m = 0x10#8 ∨ m = 0x20#8 ∨ m = 0x40#8 ∨ m = 0x80#8 := by
  simpa [oneBit] using h

theorem oneBit_ne_zero {m : Byte} (h : oneBit m = true) : m ≠ 0x00#8 := by
  rintro rfl
  exact absurd h (by decide)

/-- Two different single bits share nothing. -/
theorem oneBit_disjoint {a b : Byte} (ha : oneBit a = true) (hb : oneBit b = true) (hab : a ≠ b) : a &&& b = 0x00#8 := by
  rcases oneBit_cases ha with rfl | rfl | rfl | rfl | rfl | rfl | rfl | rfl <;>
    rcases oneBit_cases hb with rfl | rfl | rfl | rfl | rfl | rfl | rfl | rfl <;>
    first | rfl | exact absurd rfl hab

/-- A byte cut to a single bit is that bit or nothing. -/
theorem and_oneBit {m : Byte} (h : oneBit m = true) (x : Byte) : x &&& m = 0x00#8 ∨ x &&& m = m := by
  rcases oneBit_cases h with rfl | rfl | rfl | rfl | rfl | rfl | rfl | rfl <;> revert x <;> decide

/-- Three masks that are single bits and pairwise different: none is zero and no two share a bit. -/
structure DisjointBits (a b c : Byte) : Prop where
  bit_a : oneBit a = true
  bit_b : oneBit b = true
  bit_c : oneBit c = true
  ab : a &&& b = 0x00#8
  ac : a &&& c = 0x00#8
  bc : b &&& c = 0x00#8
  ba : b &&& a = 0x00#8
  ca : c &&& a = 0x00#8
  cb : c &&& b = 0x00#8

theorem threeBits_disjoint {a b c : Byte} (h : threeBits a b c = true) : DisjointBits a b c := by
  simp only [threeBits, Bool.and_eq_true, bne_iff_ne] at h
  obtain ⟨⟨⟨⟨⟨ha, hb⟩, hc⟩, hab⟩, hac⟩, hbc⟩ := h
  exact ⟨ha, hb, hc, oneBit_disjoint ha hb hab, oneBit_disjoint ha hc hac, oneBit_disjoint hb hc hbc,
    oneBit_disjoint hb ha hab.symm, oneBit_disjoint hc ha hac.symm, oneBit_disjoint hc hb hbc.symm⟩

theorem or_eq_zero {a b : Byte} (h : a ||| b = 0x00#8) : a = 0x00#8 ∧ b = 0x00#8 := by
  simpa using h

namespace Config

variable {c : Config}

theorem wf_parts (h : c.wf = true) :
    c.controlMasksOk = true ∧ c.flagMasksOk = true ∧ c.opcodeDisjoint = true ∧ c.geometryOk = true := by
  simpa [wf, and_assoc] using h

theorem controlLines (h : c.wf = true) : DisjointBits c.rsMask c.enMask c.blMask := by
  have h1 := (wf_parts h).1
  simp only [controlMasksOk, Bool.and_eq_true] at h1
  exact threeBits_disjoint h1.1

theorem controlLines_low (h : c.wf = true) :
    c.rsMask &&& 0xF0#8 = 0x00#8 ∧ c.enMask &&& 0xF0#8 = 0x00#8 ∧ c.blMask &&& 0xF0#8 = 0x00#8 := by
  have h1 := (wf_parts h).1
  simp only [controlMasksOk, Bool.and_eq_true, beq_iff_eq] at h1
  have h2 := h1.2
  rw [BitVec.and_comm, BitVec.and_or_distrib_left, BitVec.and_or_distrib_left] at h2
  obtain ⟨h3, h4⟩ := or_eq_zero h2
  obtain ⟨h5, h6⟩ := or_eq_zero h3
  exact ⟨by rw [BitVec.and_comm, h5], by rw [BitVec.and_comm, h6], by rw [BitVec.and_comm, h4]⟩

theorem flagFields (h : c.wf = true) : DisjointBits c.dMask c.cMask c.bMask :=
  threeBits_disjoint (wf_parts h).2.1

theorem opcode_flags (h : c.wf = true) : c.cmdDisplayControl &&& Machine.dcfMask c = 0x00#8 := by
  simpa [opcodeDisjoint, Machine.dcfMask] using (wf_parts h).2.2.1

theorem rows (h : c.wf = true) : 1 ≤ c.nRows ∧ c.nRows ≤ 4 ∧ c.rowBase.length = c.nRows := by
  have h1 := (wf_parts h).2.2.2
  simp only [geometryOk, Bool.and_eq_true, decide_eq_true_eq, beq_iff_eq] at h1
  exact ⟨h1.1.1.1.1, h1.1.1.1.2, h1.1.1.2⟩

end Config

end Sys2Proof
end

