-- ==== Sys2Proof/Laws/PerInstr.lean ====
section
/-!
SUPPORT. A statement about every operation as syntax, with one lemma per constructor: the first encoded byte is the
opcode R74 gives the operation, and the encoding is as long as R73 says.
-/

namespace Sys2Proof.Laws.EncodingShape

/-- The opcode byte of R74. -/
def opcodeByte : Instr → Byte
  | .init => 0x00#8
  | .clear => 0x01#8
  | .setCursor _ _ => 0x02#8
  | .sendData _ => 0x03#8
  | .sendCmd _ => 0x04#8
  | .setDisplay _ => 0x05#8
  | .setCursorDisplay _ => 0x06#8
  | .setCursorBlink _ => 0x07#8
  | .writeString _ => 0x08#8

/-- The length in bytes by format (R73): `N` 1, `B` and `S` 2, `RC` 3, `V` 2 + L. -/
def lengthBytes : Instr → Nat
  | .init | .clear => 1
  | .sendData _ | .sendCmd _ | .setDisplay _ | .setCursorDisplay _ | .setCursorBlink _ => 2
  | .setCursor _ _ => 3
  | .writeString chars => 2 + chars.length

/-- The shape of one operation's encoding. -/
def Statement (i : Instr) : Prop :=
  i.wf = true → (encode i).head? = some (opcodeByte i) ∧ (encode i).length = lengthBytes i

theorem init : Statement .init := fun _ => ⟨rfl, rfl⟩
theorem clear : Statement .clear := fun _ => ⟨rfl, rfl⟩
theorem setCursor (row col : Byte) : Statement (.setCursor row col) := fun _ => ⟨rfl, rfl⟩
theorem sendData (v : Byte) : Statement (.sendData v) := fun _ => ⟨rfl, rfl⟩
theorem sendCmd (v : Byte) : Statement (.sendCmd v) := fun _ => ⟨rfl, rfl⟩
theorem setDisplay (b : OnOff) : Statement (.setDisplay b) := fun _ => ⟨rfl, rfl⟩
theorem setCursorDisplay (b : OnOff) : Statement (.setCursorDisplay b) := fun _ => ⟨rfl, rfl⟩
theorem setCursorBlink (b : OnOff) : Statement (.setCursorBlink b) := fun _ => ⟨rfl, rfl⟩
theorem writeString (chars : List Byte) : Statement (.writeString chars) := by
  intro _
  refine ⟨rfl, ?_⟩
  simp only [encode, lengthBytes, List.length_cons]
  omega

end Sys2Proof.Laws.EncodingShape
end

