-- ==== Sys2Proof/Laws/Wire.lean ====
section
/-!
SUPPORT. What a packed byte holds, field by field, in an admitted configuration (spec R60 to R62, R155 (c)), and the
nibble algebra of R155 (a), (b). One lemma per field, so that proofs about frames never unfold `pack`.
-/

namespace Sys2Proof.Machine

theorem high_part : ∀ n : Byte, n &&& 0x0F#8 = 0x00#8 → n &&& 0xF0#8 = n := by decide

theorem highNibble_clear (v : Byte) : highNibble v &&& 0x0F#8 = 0x00#8 := by revert v; decide
theorem lowNibble_clear (v : Byte) : lowNibble v &&& 0x0F#8 = 0x00#8 := by revert v; decide

/-- R155 (a), (b): the two nibbles put together again are the byte. -/
theorem nibbles_join (v : Byte) : highNibble v ||| (lowNibble v >>> 4) = v := by revert v; decide

theorem or_and (a b m : Byte) : (a ||| b) &&& m = (a &&& m) ||| (b &&& m) := by
  rw [BitVec.and_comm, BitVec.and_or_distrib_left, BitVec.and_comm m, BitVec.and_comm m]

/-- A nibble in place shares nothing with a mask of bits 3..0. -/
theorem nibble_and_low {n m : Byte} (hn : n &&& 0x0F#8 = 0x00#8) (hm : m &&& 0xF0#8 = 0x00#8) : n &&& m = 0x00#8 := by
  rw [← high_part n hn, BitVec.and_assoc, BitVec.and_comm (0xF0#8) m, hm, BitVec.and_zero]

theorem line_and (b : Bool) (m x : Byte) : line b m &&& x = line b (m &&& x) := by
  cases b
  · exact BitVec.zero_and
  · rfl

@[simp] theorem line_zero (b : Bool) : line b 0x00#8 = 0x00#8 := by cases b <;> rfl
@[simp] theorem line_true (m : Byte) : line true m = m := rfl
@[simp] theorem line_false (m : Byte) : line false m = 0x00#8 := rfl

/-- What a mask reads of a packed byte: of its nibble and of each line. -/
theorem pack_and (c : Config) (n m : Byte) (rs bl en : Bool) :
    pack c n rs bl en &&& m =
      n &&& m ||| line rs (c.rsMask &&& m) ||| line bl (c.blMask &&& m) ||| line en (c.enMask &&& m) := by
  simp only [pack, or_and, line_and]

variable {c : Config} {n : Byte}

theorem pack_nibble (h : c.wf = true) (hn : n &&& 0x0F#8 = 0x00#8) (rs bl en : Bool) :
    pack c n rs bl en &&& 0xF0#8 = n := by
  obtain ⟨h1, h2, h3⟩ := Config.controlLines_low h
  rw [pack_and, h1, h2, h3, high_part n hn]
  simp

theorem pack_rs (h : c.wf = true) (hn : n &&& 0x0F#8 = 0x00#8) (rs bl en : Bool) :
    pack c n rs bl en &&& c.rsMask = line rs c.rsMask := by
  have d := Config.controlLines h
  rw [pack_and, nibble_and_low hn (Config.controlLines_low h).1, d.ca, d.ba, BitVec.and_self]
  simp

theorem pack_bl (h : c.wf = true) (hn : n &&& 0x0F#8 = 0x00#8) (rs bl en : Bool) :
    pack c n rs bl en &&& c.blMask = line bl c.blMask := by
  have d := Config.controlLines h
  rw [pack_and, nibble_and_low hn (Config.controlLines_low h).2.2, d.ac, d.bc, BitVec.and_self]
  simp

theorem pack_en (h : c.wf = true) (hn : n &&& 0x0F#8 = 0x00#8) (rs bl en : Bool) :
    pack c n rs bl en &&& c.enMask = line en c.enMask := by
  have d := Config.controlLines h
  rw [pack_and, nibble_and_low hn (Config.controlLines_low h).2.1, d.ab, d.cb, BitVec.and_self]
  simp

/-- R61: the unassigned bit is 0. -/
theorem pack_unassigned (hn : n &&& 0x0F#8 = 0x00#8) (rs bl en : Bool) :
    pack c n rs bl en &&& unassignedBit c = 0x00#8 := by
  have hnib : n &&& unassignedBit c = 0x00#8 := by
    rw [unassignedBit, ← BitVec.and_assoc, hn, BitVec.zero_and]
  have hr : c.rsMask &&& unassignedBit c = 0x00#8 := by
    ext i; simp +contextual [unassignedBit]
  have he : c.enMask &&& unassignedBit c = 0x00#8 := by
    ext i; simp +contextual [unassignedBit]
  have hl : c.blMask &&& unassignedBit c = 0x00#8 := by
    ext i; simp +contextual [unassignedBit]
  rw [pack_and, hnib, hr, he, hl]
  simp

/-- The register-select line is high exactly when `rs` says so. -/
theorem pack_rs_ne (h : c.wf = true) (hn : n &&& 0x0F#8 = 0x00#8) (rs bl en : Bool) :
    (pack c n rs bl en &&& c.rsMask != 0x00#8) = rs := by
  have hr : c.rsMask ≠ 0x00#8 := oneBit_ne_zero (Config.controlLines h).bit_a
  rw [pack_rs h hn]
  cases rs
  · rfl
  · simpa using hr

end Sys2Proof.Machine
end

