-- ==== Sys2Proof/Tests/Slice0.lean ====
section
/-!
SUPPORT. Tests. Expected values come from spec/95_test_vectors.md (the vector is named), from the tables of the rules
named, or from the encoding tables of R73 and R74; none is the model's own answer. Second part: for each statement with
hypotheses, a witness that meets all of them, one per clause and at the boundary values.
-/

namespace Sys2Proof.Tests

open Sys2Proof Sys2Proof.Machine

/-- The default machine in the architectural state `(dcf, initStep)`, with these answers of the transport. -/
def stateAt (dcf : Option Byte) (initStep : Nat) (answers : List (Option TxReply)) : State :=
  { State.reset with dcf := dcf, initStep := initStep, transport := answers }

/-- The same, with the value of `WS_ON_FAIL` fixed. -/
def stateWs (w : WsOnFail) (answers : List (Option TxReply)) : State :=
  { State.reset with cfg := { Config.default with wsOnFail := w }, transport := answers }

/-- The same, with bytes on the operation port. -/
def stateOn (bytes : List Byte) : State := { State.reset with opPort := bytes }

/-- `n` answers `ok`. -/
def oks (n : Nat) : List (Option TxReply) := List.replicate n (some .ok)

/-- Trace, statuses, DCF and `init_step` of a next state. -/
def shown : Host.Outcome State Fault Refusal → Option (List Event × List Status × Option Byte × Nat)
  | .next s => some (s.trace, s.statuses, s.dcf, s.initStep)
  | .fault _ => none
  | .refused _ => none

/-- The fault an outcome is. -/
def faultOf : Host.Outcome State Fault Refusal → Option Fault
  | .fault f => some f
  | .next _ => none
  | .refused _ => none

/-- The refusal an outcome is. -/
def refusalOf : Host.Outcome State Fault Refusal → Option Refusal
  | .refused r => some r
  | .next _ => none
  | .fault _ => none

/-! ### Well-formedness: each check refuses a term (R77, R8) -/

/-- A string of `n` equal characters is well-formed up to 255. -/
theorem string_wf (n : Nat) (ch : Byte) : (Instr.writeString (List.replicate n ch)).wf = decide (n ≤ 255) := by
  simp [Instr.wf]

theorem test_wf_string_255 : (Instr.writeString (List.replicate 255 0x2A#8)).wf = true := by rw [string_wf]; rfl
theorem test_wf_string_256_refused : (Instr.writeString (List.replicate 256 0x2A#8)).wf = false := by rw [string_wf]; rfl
theorem test_wf_default : Config.default.wf = true := by decide
/-- R8 (a): a control line on a nibble bit. -/
theorem test_wf_control_high : { Config.default with rsMask := 0x10#8 }.wf = false := by decide
/-- R8 (a): two control lines on one bit. -/
theorem test_wf_control_shared : { Config.default with enMask := 0x01#8 }.wf = false := by decide
/-- R8 (a): a mask of two bits. -/
theorem test_wf_control_two_bits : { Config.default with rsMask := 0x03#8 }.wf = false := by decide
/-- R8 (b): two DCF fields on one bit, and a field of no bit. -/
theorem test_wf_flags : { Config.default with cMask := 0x04#8 }.wf = false ∧
    { Config.default with bMask := 0x00#8 }.wf = false := by decide
/-- R8 (c): the opcode shares a bit with the flags. -/
theorem test_wf_opcode : { Config.default with cmdDisplayControl := 0x0C#8 }.wf = false := by decide
/-- R8 (d): no row, five rows, a table of another length, no column, 21 columns. -/
theorem test_wf_geometry :
    { Config.default with nRows := 0, rowBase := [] }.wf = false ∧
      { Config.default with nRows := 5, rowBase := [0x00#8, 0x40#8, 0x14#8, 0x54#8, 0x60#8] }.wf = false ∧
      { Config.default with rowBase := [0x00#8] }.wf = false ∧
      { Config.default with nCols := 0 }.wf = false ∧ { Config.default with nCols := 21 }.wf = false := by decide
theorem test_unadmitted_refused :
    refusalOf (step { stateOn [0x01#8] with cfg := { Config.default with nCols := 21 } }) = some .configNotAdmitted := by
  decide

/-! ### Decoding, from R73, R74 and the vectors V80 to V88 -/

theorem test_decode_init : decode [0b00000000#8] = .instr .init [] := by decide
theorem test_decode_clear : decode [0b00000001#8] = .instr .clear [] := by decide
/-- V48: the row first, then the column. -/
theorem test_decode_setCursor :
    decode [0b00000010#8, 0b00000001#8, 0b00000101#8, 0x01#8] = .instr (.setCursor 1#8 5#8) [0x01#8] := by decide
theorem test_decode_sendData : decode [0b00000011#8, 0b01000001#8] = .instr (.sendData 0x41#8) [] := by decide
theorem test_decode_sendCmd : decode [0b00000100#8, 0b00110000#8] = .instr (.sendCmd 0x30#8) [] := by decide
/-- V84. -/
theorem test_decode_setDisplay : decode [0b00000101#8, 0b00000001#8] = .instr (.setDisplay .on) [] := by decide
theorem test_decode_setCursorDisplay :
    decode [0b00000110#8, 0b00000000#8] = .instr (.setCursorDisplay .off) [] := by decide
theorem test_decode_setCursorBlink :
    decode [0b00000111#8, 0b00000001#8] = .instr (.setCursorBlink .on) [] := by decide
/-- V75: a zero character does not end the string. -/
theorem test_decode_writeString :
    decode [0b00001000#8, 0b00000011#8, 0x41#8, 0x00#8, 0x42#8, 0x01#8] =
      .instr (.writeString [0x41#8, 0x00#8, 0x42#8]) [0x01#8] := by decide
/-- V85. -/
theorem test_decode_empty_string : decode [0x08#8, 0x00#8] = .instr (.writeString []) [] := by decide
/-- V80, V81, V82. -/
theorem test_decode_undefined_opcode :
    decode [0x09#8, 0x01#8] = .illegal (.undefinedOpcode 0x09#8) [0x01#8] ∧
      decode [0xFF#8] = .illegal (.undefinedOpcode 0xFF#8) [] ∧
      decode [0x80#8] = .illegal (.undefinedOpcode 0x80#8) [] := by decide
/-- V83, V35. -/
theorem test_decode_reserved_bits :
    decode [0x05#8, 0x02#8, 0x01#8] = .illegal (.reservedStateBits 0x05#8 0x02#8) [0x01#8] ∧
      decode [0x05#8, 0x03#8] = .illegal (.reservedStateBits 0x05#8 0x03#8) [] ∧
      decode [0x06#8, 0x80#8] = .illegal (.reservedStateBits 0x06#8 0x80#8) [] ∧
      decode [0x07#8, 0xFF#8] = .illegal (.reservedStateBits 0x07#8 0xFF#8) [] := by decide
/-- R77: the length is known from the opcode byte, for format `V` from the byte after it. -/
theorem test_decode_incomplete :
    decode [] = .incomplete ∧ decode [0x02#8, 0x01#8] = .incomplete ∧ decode [0x05#8] = .incomplete ∧
      decode [0x08#8, 0x02#8, 0x41#8] = .incomplete := by decide
/-- The encodings column of the vectors V59, V74, P1. -/
theorem test_encode :
    encode (.setCursor 0xFF#8 0xFF#8) = [0x02#8, 0xFF#8, 0xFF#8] ∧
      encode (.writeString [0x41#8, 0x3D#8]) = [0x08#8, 0x02#8, 0x41#8, 0x3D#8] ∧
      encode (.setCursorBlink .on) = [0x07#8, 0x01#8] := by decide
/-- R74: the table's word of SETCURSOR has its column in bits 7..0; of WRITESTRING its count. -/
theorem test_tableWord :
    decodeTableWord 24 0x0203FF = some (.setCursor 0x03#8 0xFF#8) ∧
      decodeTableWord 16 0x0802 = some (.writeString [0x00#8, 0x00#8]) ∧ decodeTableWord 16 0x0502 = none ∧
      decodeTableWord 8 0x09 = none := by decide

/-! ### Packed bytes and frames -/

/-- The table of section 2.1, and its last sentence (backlight low). -/
theorem test_pack :
    pack Config.default 0xA0#8 true true false = 0xA9#8 ∧ pack Config.default 0x30#8 false true true = 0x3C#8 ∧
      pack Config.default 0x50#8 true false true = 0x55#8 := by decide
/-- V13. -/
theorem test_frame4 : frame4 Config.default false 0x2F#8 = [0x4E#8, 0x2C#8, 0x28#8] := by decide
/-- V9 read backwards, and what the controller latches of it (R68). -/
theorem test_frame_read :
    frameValue [0x4E#8, 0xAD#8, 0xA9#8, 0x5D#8, 0x59#8] = some 0xA5#8 ∧
      latched Config.default [0xAD#8, 0xA9#8, 0x5D#8, 0x59#8] = [(true, 0xA#4), (true, 0x5#4)] := by decide

/-! ### One operation -/

/-- V9. -/
theorem test_sendData :
    shown (exec (.sendData 0xA5#8) (stateAt none 0 (oks 1))) =
      some ([.tx [0x4E#8, 0xAD#8, 0xA9#8, 0x5D#8, 0x59#8]], [.ok], none, 0) := by decide
/-- V14: the event is in the trace although the call failed. -/
theorem test_sendData_fail :
    shown (exec (.sendData 0x41#8) (stateAt (some 0x04#8) 8 [some (.fail 2)])) =
      some ([.tx [0x4E#8, 0x4D#8, 0x49#8, 0x1D#8, 0x19#8]], [.transportFailure], some 0x04#8, 8) := by decide
/-- V15: a DISPLAY_CONTROL byte sent as a plain command does not reach DCF. -/
theorem test_sendCmd :
    shown (exec (.sendCmd 0x0F#8) (stateAt (some 0x04#8) 8 (oks 1))) =
      some ([.tx [0x4E#8, 0x0C#8, 0x08#8, 0xFC#8, 0xF8#8]], [.ok], some 0x04#8, 8) := by decide
/-- V47: the last cell of row 3. -/
theorem test_setCursor :
    shown (exec (.setCursor 3#8 19#8) (stateAt none 0 (oks 1))) =
      some ([.tx [0x4E#8, 0xEC#8, 0xE8#8, 0x7C#8, 0x78#8]], [.ok], none, 0) := by decide
/-- V58 and V50: the sum wraps; row 4 falls back to row 0. -/
theorem test_setCursor_edges :
    shown (exec (.setCursor 3#8 255#8) (stateAt none 0 (oks 1))) =
      some ([.tx [0x4E#8, 0xDC#8, 0xD8#8, 0x3C#8, 0x38#8]], [.ok], none, 0) ∧
    shown (exec (.setCursor 4#8 5#8) (stateAt none 0 (oks 1))) =
      some ([.tx [0x4E#8, 0x8C#8, 0x88#8, 0x5C#8, 0x58#8]], [.ok], none, 0) := by decide
/-- V30, row 0x07, and V32. -/
theorem test_setDisplay :
    shown (exec (.setDisplay .off) (stateAt (some 0x07#8) 8 (oks 1))) =
      some ([.tx [0x4E#8, 0x0C#8, 0x08#8, 0xBC#8, 0xB8#8], .wait 4], [.ok], some 0x03#8, 8) ∧
    shown (exec (.setDisplay .on) (stateAt none 0 [])) = some ([], [.flagsUnwritten], none, 0) := by decide
/-- V33: DCF is written first, and no settle delay follows a failed send. -/
theorem test_setCursorDisplay_fail :
    shown (exec (.setCursorDisplay .on) (stateAt (some 0x04#8) 8 [some (.fail 0)])) =
      some ([.tx [0x4E#8, 0x0C#8, 0x08#8, 0xEC#8, 0xE8#8]], [.transportFailure], some 0x06#8, 8) := by decide
/-- V34. -/
theorem test_setCursorBlink :
    shown (exec (.setCursorBlink .on) (stateAt (some 0x00#8) 5 (oks 1))) =
      some ([.tx [0x4E#8, 0x0C#8, 0x08#8, 0x9C#8, 0x98#8], .wait 4], [.ok], some 0x01#8, 5) := by decide
/-- V30, row 0x05, the request equal to the present value: frame and wait are still emitted. -/
theorem test_setCursorDisplay_same :
    shown (exec (.setCursorDisplay .off) (stateAt (some 0x05#8) 8 (oks 1))) =
      some ([.tx [0x4E#8, 0x0C#8, 0x08#8, 0xDC#8, 0xD8#8], .wait 4], [.ok], some 0x05#8, 8) := by decide
/-- V70 and V71. -/
theorem test_clear :
    shown (exec .clear (stateAt (some 0x04#8) 8 (oks 1))) =
      some ([.tx [0x4E#8, 0x0C#8, 0x08#8, 0x1C#8, 0x18#8], .wait 2], [.ok], some 0x04#8, 8) ∧
    shown (exec .clear (stateAt (some 0x04#8) 8 [some (.fail 4)])) =
      some ([.tx [0x4E#8, 0x0C#8, 0x08#8, 0x1C#8, 0x18#8]], [.transportFailure], some 0x04#8, 8) := by decide
/-- V76 with `WS_ON_FAIL = stop`: the third answer is not used up. -/
theorem test_writeString_stop :
    shown (exec (.writeString [0x30#8, 0x31#8, 0x32#8]) (stateWs .stop [some .ok, some (.fail 0), some .ok])) =
      some ([.tx [0x4E#8, 0x3D#8, 0x39#8, 0x0D#8, 0x09#8], .tx [0x4E#8, 0x3D#8, 0x39#8, 0x1D#8, 0x19#8]],
        [.transportFailure], none, 0) := by decide
/-- V76 with `WS_ON_FAIL = continue`. -/
theorem test_writeString_goOn :
    shown (exec (.writeString [0x30#8, 0x31#8, 0x32#8]) (stateWs .goOn [some .ok, some (.fail 0), some .ok])) =
      some ([.tx [0x4E#8, 0x3D#8, 0x39#8, 0x0D#8, 0x09#8], .tx [0x4E#8, 0x3D#8, 0x39#8, 0x1D#8, 0x19#8],
          .tx [0x4E#8, 0x3D#8, 0x39#8, 0x2D#8, 0x29#8]],
        [.transportFailure], none, 0) := by decide
/-- V22: an abort at the third `Tx` keeps the DCF of before. -/
theorem test_init_abort :
    shown (exec .init (stateAt (some 0x07#8) 8 [some .ok, some .ok, some (.fail 0)])) =
      some ([.wait 50, .tx [0x4E#8, 0x3C#8, 0x38#8, 0x0C#8, 0x08#8], .wait 6,
          .tx [0x4E#8, 0x3C#8, 0x38#8, 0x0C#8, 0x08#8], .wait 2,
          .tx [0x4E#8, 0x3C#8, 0x38#8, 0x0C#8, 0x08#8]],
        [.transportFailure], some 0x07#8, 1) := by decide
/-- V21, row 9, and V20: state and status after a failed and a successful step 8. -/
theorem test_init_end :
    (shown (exec .init (stateAt none 0 (oks 8 ++ [some (.fail 0)])))).map (fun t => (t.1.length, t.2)) =
      some (16, [.transportFailure], some 0x04#8, 7) ∧
    (shown (exec .init (stateAt (some 0x07#8) 8 (oks 9)))).map (fun t => (t.1.length, t.2)) =
      some (16, [.ok], some 0x04#8, 8) := by decide

/-! ### One step, from reset -/

/-- P5, its first and second row. -/
theorem test_step_illegal :
    shown (step (stateOn [0x09#8])) = some ([], [.illegalOperation], none, 0) ∧
      shown (step (stateOn [0x05#8, 0x02#8])) = some ([], [.illegalOperation], none, 0) := by decide
/-- P5, its last row. -/
theorem test_step_empty_string : shown (step (stateOn [0x08#8, 0x00#8])) = some ([], [.ok], none, 0) := by decide
/-- R181, R210: with nothing placed, the machine idles after reset. -/
theorem test_step_idle : step State.reset = .next State.reset := rfl
/-- V40, placed as the table's word. -/
theorem test_withFetchWord :
    shown (step (State.reset.withFetchWord 24 0x020000)) =
      some ([.tx [0x4E#8, 0x8C#8, 0x88#8, 0x0C#8, 0x08#8]], [.ok], none, 0) := by decide
/-- V32, placed as the table's word. -/
theorem test_withFetchWord_toggle :
    shown (step (State.reset.withFetchWord 16 0x0501)) = some ([], [.flagsUnwritten], none, 0) := by decide
/-- V20, placed as the table's word. -/
theorem test_withFetchWord_init :
    (shown (step (State.reset.withFetchWord 8 0x00))).map (fun t => t.2) = some ([.ok], some 0x04#8, 8) := by decide

/-! ### Witnesses: for each statement with hypotheses, values that meet all of them -/

/-- An admitted configuration far from the default: other lines, other fields, one row. -/
def otherConfig : Config :=
  { Config.default with
    rsMask := 0x08#8, enMask := 0x01#8, blMask := 0x02#8
    dMask := 0x80#8, cMask := 0x01#8, bMask := 0x10#8
    nRows := 1, rowBase := [0xFF#8], nCols := 20 }

theorem answersOk_oks (s : State) (n : Nat) (h : s.transport = oks n) : s.AnswersOk n := by
  intro k hk
  simp [State.replyAt, h, oks, hk]

theorem witness_configs : Config.default.wf = true ∧ otherConfig.wf = true := by decide

theorem witness_DecodeInvertsEncode :
    Instr.init.wf = true ∧ (Instr.writeString (List.replicate 255 0x00#8)).wf = true := by
  rw [string_wf]; exact ⟨rfl, rfl⟩
theorem witness_DecodeReadsOnlyEncodings :
    decode [0x08#8, 0x01#8, 0x41#8, 0x09#8] = .instr (.writeString [0x41#8]) [0x09#8] := by decide
theorem witness_DecodeWaitsForTheRest :
    decode [] = .incomplete ∧ decode [0x08#8, 0x01#8] = .incomplete ∧ decode [0x08#8, 0x00#8] ≠ .incomplete := by decide
theorem witness_IllegalBytes :
    IllegalBytes [0x09#8] ∧ IllegalBytes [0xFF#8] ∧ IllegalBytes [0x05#8, 0x02#8] ∧ IllegalBytes [0x07#8, 0xFE#8] :=
  ⟨⟨_, _, rfl, .inl (by decide)⟩, ⟨_, _, rfl, .inl (by decide)⟩,
    ⟨_, _, rfl, .inr ⟨.inl rfl, _, _, rfl, by decide⟩⟩, ⟨_, _, rfl, .inr ⟨.inr (.inr rfl), _, _, rfl, by decide⟩⟩⟩
theorem witness_DecodeRefusesExactlyIllegal :
    decode [0x09#8, 0x01#8] = .illegal (.undefinedOpcode 0x09#8) [0x01#8] ∧
      decode [0x05#8, 0x02#8] = .illegal (.reservedStateBits 0x05#8 0x02#8) [] := by decide

theorem witness_StepRunsDecoded : decode (stateOn [0x01#8, 0x00#8]).opPort = .instr .clear [0x00#8] := by decide
theorem witness_StepIdles :
    State.reset.cfg.wf = true ∧ decode State.reset.opPort = .incomplete ∧
      decode (stateOn [0x02#8]).opPort = .incomplete := by decide
/-- Clause two at both forms of illegal bytes: the configuration is admitted; the bytes are `witness_IllegalBytes`. -/
theorem witness_IllegalOperationIsRefused :
    ((stateOn [0x09#8]).cfg.wf = true ∧ IllegalBytes (stateOn [0x09#8]).opPort) ∧
      ((stateOn [0x05#8, 0x02#8]).cfg.wf = true ∧ IllegalBytes (stateOn [0x05#8, 0x02#8]).opPort) ∧
      (∃ s', step (stateOn [0x09#8]) = .next s' ∧ s'.statuses = (stateOn [0x09#8]).statuses ++ [.illegalOperation]) ∧
      ∃ s', exec .clear (stateAt none 0 (oks 1)) = .next s' :=
  ⟨⟨by decide, witness_IllegalBytes.1⟩, ⟨by decide, witness_IllegalBytes.2.2.1⟩, ⟨_, rfl, rfl⟩, ⟨_, rfl⟩⟩

theorem witness_SendResult :
    (stateAt none 0 (oks 1)).cfg.wf = true ∧ (stateAt none 0 (oks 1)).replyAt 0 = some .ok ∧
      (stateAt none 0 [some (.fail 0)]).replyAt 0 = some (.fail 0) ∧
      (stateAt none 0 [some (.fail 4)]).replyAt 0 = some (.fail 4) := by decide
theorem witness_SetCursorRowFallsBack :
    (stateAt none 0 (oks 1)).cfg.nRows ≤ (4#8 : Byte).toNat ∧ (stateAt none 0 (oks 1)).cfg.nRows ≤ (255#8 : Byte).toNat ∧
      (stateAt none 0 (oks 1)).cfg.wf = true ∧ (stateAt none 0 (oks 1)).replyAt 0 = some .ok := by decide
/-- Rows 0, 3 and 4 and columns 0 and 19: the boundaries of the two clauses, which exclude each other. -/
theorem witness_SetCursorInRange :
    (stateAt none 0 (oks 1)).cfg = Config.default ∧ (stateAt none 0 (oks 1)).replyAt 0 = some .ok ∧
      (0#8 : Byte).toNat < 4 ∧ (3#8 : Byte).toNat < 4 ∧ (0#8 : Byte).toNat < 20 ∧ (19#8 : Byte).toNat < 20 ∧
      4 ≤ (4#8 : Byte).toNat :=
  ⟨rfl, rfl, by decide, by decide, by decide, by decide, by decide⟩

/-- The premises of the toggle statements: each operation, unwritten and written flags, both answers. -/
theorem witness_ToggleFollowsProcedure :
    (stateAt none 0 []).readDcf = none ∧
      (stateAt (some 0x07#8) 8 (oks 1)).cfg.wf = true ∧
      toggleMask Config.default (.setDisplay .on) = some 0x04#8 ∧
      toggleMask Config.default (.setCursorDisplay .off) = some 0x02#8 ∧
      toggleMask Config.default (.setCursorBlink .on) = some 0x01#8 ∧
      toggleState (.setCursorBlink .on) = some .on ∧ toggleState (.setDisplay .off) = some .off ∧
      (stateAt (some 0x07#8) 8 (oks 1)).readDcf = some 0x07#8 ∧
      (stateAt (some 0x07#8) 8 (oks 1)).replyAt 0 = some .ok ∧
      (stateAt (some 0x07#8) 8 [some (.fail 1)]).replyAt 0 = some (.fail 1) := by decide
theorem witness_ToggleFollowsProcedure_waits :
    (stateAt (some 0x07#8) 8 (oks 1)).WaitsReturn (settle (stateAt (some 0x07#8) 8 (oks 1)).cfg.tToggle).length ∧
      ({ stateAt (some 0x07#8) 8 (oks 1) with delayHang := some 1 }).WaitsReturn 1 := by
  constructor
  · intro k hk; cases hk
  · intro k hk; cases hk; decide
theorem witness_ToggleNeedsWrittenFlags :
    (stateAt none 0 []).cfg.wf = true ∧ toggleMask (stateAt none 0 []).cfg (.setDisplay .on) = some 0x04#8 ∧
      (stateAt none 0 []).dcf = none ∧
      (∃ s', exec (.setCursorBlink .off) (stateAt none 0 []) = .next s' ∧
        s'.statuses = (stateAt none 0 []).statuses ++ [.flagsUnwritten]) ∧
      (∃ s', exec .clear (stateAt none 0 (oks 1)) = .next s' ∧ Instr.clear ≠ .init) ∧
      (∃ s', exec .init (stateAt none 0 (oks 4 ++ [some (.fail 0)])) = .next s' ∧ s'.dcf = none ∧ s'.initStep = 3) ∧
      ∃ s', exec .init (stateAt none 0 (oks 5 ++ [some (.fail 0)])) = .next s' ∧ s'.dcf = some 0x00#8 ∧
        s'.initStep = 4 :=
  ⟨by decide, by decide, rfl, ⟨_, rfl, rfl⟩, ⟨_, rfl, by decide⟩, ⟨_, rfl, rfl, rfl⟩, ⟨_, rfl, rfl, rfl⟩⟩
theorem witness_ToggleChangesOneField :
    toggleMask (stateAt (some 0x05#8) 8 (oks 1)).cfg (.setCursorDisplay .on) = some 0x02#8 ∧
      toggleState (.setCursorDisplay .on) = some .on ∧
      (stateAt (some 0x05#8) 8 (oks 1)).readDcf = some 0x05#8 ∧
      ∃ s', exec (.setCursorDisplay .on) (stateAt (some 0x05#8) 8 (oks 1)) = .next s' :=
  ⟨by decide, rfl, by decide, ⟨_, rfl⟩⟩
theorem witness_DisplayOffThenBlinkOn :
    ∃ s1 s2, (stateAt (some 0x04#8) 8 (oks 2)).readDcf = some 0x04#8 ∧
      exec (.setDisplay .off) (stateAt (some 0x04#8) 8 (oks 2)) = .next s1 ∧
      exec (.setCursorBlink .on) s1 = .next s2 :=
  ⟨_, _, by decide, rfl, rfl⟩

theorem witness_InitCompletes :
    (stateAt (some 0x07#8) 3 (oks 9)).cfg.wf = true ∧ (stateAt (some 0x07#8) 3 (oks 9)).AnswersOk 9 ∧
      (stateAt (some 0x07#8) 3 (oks 9)).WaitsReturn 10 :=
  ⟨by decide, answersOk_oks _ 9 rfl, fun _ hk => by cases hk⟩
/-- The waits of the premise may be exactly as many as return. -/
theorem witness_InitCompletes_waits :
    (waitEvents (initEvents Config.default)).length = 7 ∧
      ({ stateAt none 0 (oks 9) with delayHang := some 7 }).WaitsReturn 7 :=
  ⟨by decide, fun k hk => by cases hk; decide⟩
/-- The first and the last `Tx`, and those on both sides of the places where the clauses change (`k` = 2, 3, 4, 5, 7). -/
theorem witness_InitAborts :
    ∀ k ∈ [0, 2, 3, 4, 5, 7, 8], k < 9 ∧ (stateAt none 0 (oks k ++ [some (.fail 3)])).cfg.wf = true ∧
      (∀ j, j < k → (stateAt none 0 (oks k ++ [some (.fail 3)])).replyAt j = some .ok) ∧
      (stateAt none 0 (oks k ++ [some (.fail 3)])).replyAt k = some (.fail 3) ∧
      (stateAt none 0 (oks k ++ [some (.fail 3)])).delayHang = none := by decide
theorem witness_InitOkLeavesDisplayOn :
    (∃ s', exec .init (stateAt none 0 (oks 9)) = .next s' ∧
      s'.statuses = (stateAt none 0 (oks 9)).statuses ++ [.ok]) ∧ (stateAt none 0 (oks 9)).cfg = Config.default :=
  ⟨⟨_, rfl, rfl⟩, rfl⟩
theorem witness_InitTraceAtDefaults :
    (stateAt none 0 (oks 9)).cfg = Config.default ∧ (stateAt none 0 (oks 9)).AnswersOk 9 ∧
      (stateAt none 0 (oks 9)).WaitsReturn 7 ∧ (stateAt none 0 (oks 9)).WaitsReturn 10 :=
  ⟨rfl, answersOk_oks _ 9 rfl, (fun _ hk => by cases hk), (fun _ hk => by cases hk)⟩

theorem witness_ClearResult :
    (stateAt none 0 (oks 1)).cfg.wf = true ∧ (stateAt none 0 (oks 1)).replyAt 0 = some .ok ∧
      (stateAt none 0 [some (.fail 2)]).replyAt 0 = some (.fail 2) ∧ (stateAt none 0 (oks 1)).delayHang = none := by
  decide
/-- The empty string and one of two characters. -/
theorem witness_WriteStringCompletes :
    (stateAt none 0 []).cfg.wf = true ∧ (stateAt none 0 []).AnswersOk ([] : List Byte).length ∧
      (stateAt none 0 (oks 2)).AnswersOk [0x41#8, 0x3D#8].length :=
  ⟨by decide, fun k hk => absurd hk (by simp), answersOk_oks _ 2 rfl⟩
theorem witness_WriteStringIsSendDataOfEach :
    (stateAt (some 0x04#8) 8 (oks 2)).cfg.wf = true ∧ (stateAt (some 0x04#8) 8 (oks 2)).AnswersOk [0x41#8, 0x3D#8].length :=
  ⟨by decide, answersOk_oks _ 2 rfl⟩
/-- The first and the last character of a string fail. -/
theorem witness_WriteStringStopsOnFailure :
    ∀ k ∈ [0, 2], (stateWs .stop (oks k ++ [some (.fail 0)])).cfg.wf = true ∧
      (stateWs .stop (oks k ++ [some (.fail 0)])).cfg.wsOnFail = .stop ∧ k < [0x30#8, 0x31#8, 0x32#8].length ∧
      (∀ j, j < k → (stateWs .stop (oks k ++ [some (.fail 0)])).replyAt j = some .ok) ∧
      (stateWs .stop (oks k ++ [some (.fail 0)])).replyAt k = some (.fail 0) := by decide
theorem witness_WriteStringContinuesOnFailure :
    (stateWs .goOn [some (.fail 1), some .ok]).cfg.wf = true ∧
      (stateWs .goOn [some (.fail 1), some .ok]).cfg.wsOnFail = .goOn ∧
      [TxReply.fail 1, .ok].length = [0x30#8, 0x31#8].length ∧
      ∀ k, k < 2 → ∃ r, [TxReply.fail 1, .ok][k]? = some r ∧
        (stateWs .goOn [some (.fail 1), some .ok]).replyAt k = some r := by
  refine ⟨by decide, by decide, rfl, fun k hk => ?_⟩
  match k, hk with
  | 0, _ => exact ⟨_, rfl, rfl⟩
  | 1, _ => exact ⟨_, rfl, rfl⟩

theorem witness_PlainOperationFrame :
    ∀ i ∈ [Instr.clear, .setCursor 1#8 2#8, .sendData 0x41#8, .sendCmd 0x0F#8, .writeString [0x41#8]],
      toggleMask (stateAt none 0 (oks 1)).cfg i = none ∧ i ≠ .init ∧
        shown (exec i (stateAt none 0 (oks 1))) ≠ none := by decide
theorem witness_ToggleFrame :
    ∀ i ∈ [Instr.setDisplay .on, .setCursorDisplay .off, .setCursorBlink .on],
      toggleMask (stateAt (some 0x07#8) 8 (oks 1)).cfg i ≠ none ∧
        (stateAt (some 0x07#8) 8 (oks 1)).readDcf = some 0x07#8 ∧
        shown (exec i (stateAt (some 0x07#8) 8 (oks 1))) ≠ none := by decide
theorem witness_InitFrame : ∃ s', exec .init (stateAt none 0 (oks 9)) = .next s' := ⟨_, rfl⟩
theorem witness_StepAnswersNext :
    ∃ s', step { stateOn [0x03#8, 0x41#8, 0x01#8] with transport := oks 1 } = .next s' ∧ s'.opPort = [0x01#8] :=
  ⟨_, rfl, rfl⟩
/-- Every operation answers a next state somewhere (the premise of StatusTable, EventBounds, FrameLengths and
PastIsForgotten). -/
theorem witness_EveryOperation :
    ∀ i ∈ [Instr.init, .clear, .setCursor 1#8 2#8, .sendData 0x41#8, .sendCmd 0x0F#8, .setDisplay .on,
        .setCursorDisplay .off, .setCursorBlink .on, .writeString [0x41#8, 0x42#8]],
      shown (exec i (stateAt (some 0x04#8) 8 (oks 9))) ≠ none := by decide
theorem witness_StatusTable :
    mayEndWith .clear .transportFailure = true ∧ mayEndWith (.setDisplay .on) .flagsUnwritten = true ∧
      mayEndWith (.writeString []) .ok = true := by decide
/-- First clause: an operation that a call stops. -/
theorem witness_OnlyBlockedCallsStop :
    faultOf (exec (.sendCmd 0x41#8) (stateAt none 0 [none])) = some .transportNeverReturns ∧
      faultOf (exec .init { stateAt none 0 (oks 9) with delayHang := some 6 }) = some .delayNeverReturns := by decide
/-- Second clause: the first and the last `Tx` of INIT, with exactly the waits before it returning (one and seven: V21's
column of events, less its `TX`). -/
theorem witness_OnlyBlockedCallsStop_init :
    ∀ k ∈ [0, 8], k < txCalls .init ∧ (stateAt none 0 (oks k ++ [none])).cfg.wf = true ∧
      (toggleState .init ≠ none → (stateAt none 0 []).dcf ≠ none) ∧
      (∀ j, j < k → (stateAt none 0 (oks k ++ [none])).replyAt j = some .ok) ∧
      (stateAt none 0 (oks k ++ [none])).replyAt k = none ∧
      waitsBefore Config.default .init k = (if k = 0 then 1 else 7) := by decide
/-- Second clause: the one `Tx` of each other operation, DCF written for the toggles, and the last of a string. -/
theorem witness_OnlyBlockedCallsStop_tx :
    (∀ i ∈ [Instr.clear, .setCursor 1#8 2#8, .sendData 0x41#8, .sendCmd 0x0F#8, .setDisplay .on, .setCursorDisplay .off,
        .setCursorBlink .on, .writeString [0x41#8]],
      0 < txCalls i ∧ waitsBefore Config.default i 0 = 0) ∧
      (stateAt (some 0x04#8) 8 [none]).cfg.wf = true ∧ (stateAt (some 0x04#8) 8 [none]).dcf ≠ none ∧
      (stateAt (some 0x04#8) 8 [none]).replyAt 0 = none ∧
      1 < txCalls (.writeString [0x41#8, 0x42#8]) ∧ (stateAt none 0 [some .ok, none]).replyAt 1 = none := by decide
/-- Third clause: after a failed character. -/
theorem witness_OnlyBlockedCallsStop_goOn :
    (stateWs .goOn [some (.fail 0), none]).cfg.wf = true ∧ (stateWs .goOn [some (.fail 0), none]).cfg.wsOnFail = .goOn ∧
      1 < [0x41#8, 0x42#8].length ∧ (∀ j, j < 1 → (stateWs .goOn [some (.fail 0), none]).replyAt j ≠ none) ∧
      (stateWs .goOn [some (.fail 0), none]).replyAt 1 = none := by decide
/-- Fourth clause: the waits of R121 (the first before any `Tx`, the last after eight), of CLEAR and of a toggle. -/
theorem witness_OnlyBlockedCallsStop_wait :
    waitCalls Config.default .init = [0, 1, 2, 3, 5, 7, 8] ∧ waitCalls Config.default .clear = [1] ∧
      waitCalls Config.default (.setDisplay .on) = [1] ∧
      (∀ j, j < 8 → ({ stateAt (some 0x04#8) 8 (oks 8) with delayHang := some 6 }).replyAt j = some .ok) ∧
      ({ stateAt (some 0x04#8) 8 (oks 8) with delayHang := some 6 }).cfg.wf = true ∧
      ({ stateAt (some 0x04#8) 8 (oks 1) with delayHang := some 0 }).dcf ≠ none ∧
      ({ stateAt (some 0x04#8) 8 (oks 1) with delayHang := some 0 }).replyAt 0 = some .ok := by decide
theorem witness_OperationsReturn :
    State.reset.cfg.wf = true ∧ State.reset.CallsReturn ∧ (stateAt none 0 [some (.fail 2), some .ok]).CallsReturn :=
  ⟨by decide, ⟨by decide, rfl⟩, ⟨by decide, rfl⟩⟩
theorem witness_StepKeepsInvariant :
    (stateOn [0x09#8]).Inv ∧ ∃ s', step (stateOn [0x09#8]) = .next s' :=
  ⟨⟨by decide, nofun, by decide, by decide, nofun, nofun, rfl⟩, ⟨_, rfl⟩⟩
theorem witness_DcfMatchesLastCommand :
    controlDistinct (stateAt none 0 (oks 9)).cfg ∧ (stateAt none 0 (oks 9)).DcfShown ∧
      isControl (stateAt none 0 (oks 9)).cfg 0x30#8 = false ∧
      (∃ s', exec .init (stateAt none 0 (oks 9)) = .next s') ∧
      ∃ s', exec (.sendCmd 0x30#8) (stateAt none 0 (oks 9)) = .next s' := by
  refine ⟨by unfold controlDistinct; decide, fun _ d hd => ?_, by decide, ⟨_, rfl⟩, ⟨_, rfl⟩⟩
  cases hd

end Sys2Proof.Tests
end

section
/-!
PROOFS, family 00_scope.md: the configurations that are admitted (R8), that the configuration is fixed (R7), and the
invariant of a safe run. The last two are properties that every effect of an operation keeps (`KeptByInit.step`).
-/

namespace Sys2Proof

/-! ### Single bits as shifts of 1 -/

theorem oneBit_shift : ∀ i < 8, oneBit (1#8 <<< i) = true := by decide

theorem shift_inj : ∀ i < 8, ∀ j < 8, 1#8 <<< i = 1#8 <<< j ↔ i = j := by decide

theorem shift_low : ∀ i < 8, (1#8 <<< i) &&& 0xF0#8 = 0x00#8 ↔ i < 4 := by decide

theorem oneBit_iff {m : Byte} : oneBit m = true ↔ ∃ i < 8, m = 1#8 <<< i := by
  constructor
  · intro h
    rcases oneBit_cases h with rfl | rfl | rfl | rfl | rfl | rfl | rfl | rfl
    exacts [⟨0, by decide⟩, ⟨1, by decide⟩, ⟨2, by decide⟩, ⟨3, by decide⟩, ⟨4, by decide⟩, ⟨5, by decide⟩,
      ⟨6, by decide⟩, ⟨7, by decide⟩]
  · rintro ⟨i, hi, rfl⟩
    exact oneBit_shift i hi

/-- `a`, `b`, `c` are three different bits among the lowest `n`. -/
def BitsBelow (n : Nat) (a b c : Byte) : Prop :=
  ∃ i j k : Nat, i < n ∧ j < n ∧ k < n ∧ i ≠ j ∧ i ≠ k ∧ j ≠ k ∧ a = 1#8 <<< i ∧ b = 1#8 <<< j ∧ c = 1#8 <<< k

theorem threeBits_iff {a b c : Byte} : threeBits a b c = true ↔ BitsBelow 8 a b c := by
  simp only [threeBits, Bool.and_eq_true, bne_iff_ne, and_assoc]
  constructor
  · rintro ⟨ha, hb, hc, hab, hac, hbc⟩
    obtain ⟨i, hi, rfl⟩ := oneBit_iff.1 ha
    obtain ⟨j, hj, rfl⟩ := oneBit_iff.1 hb
    obtain ⟨k, hk, rfl⟩ := oneBit_iff.1 hc
    exact ⟨i, j, k, hi, hj, hk, mt (shift_inj i hi j hj).2 hab, mt (shift_inj i hi k hk).2 hac,
      mt (shift_inj j hj k hk).2 hbc, rfl, rfl, rfl⟩
  · rintro ⟨i, j, k, hi, hj, hk, hij, hik, hjk, rfl, rfl, rfl⟩
    exact ⟨oneBit_shift i hi, oneBit_shift j hj, oneBit_shift k hk, mt (shift_inj i hi j hj).1 hij,
      mt (shift_inj i hi k hk).1 hik, mt (shift_inj j hj k hk).1 hjk⟩

/-- Bits among the lowest four are the ones off the high nibble. -/
theorem bitsBelow_four_iff {a b c : Byte} :
    BitsBelow 4 a b c ↔ BitsBelow 8 a b c ∧ (a ||| b ||| c) &&& 0xF0#8 = 0x00#8 := by
  constructor
  · rintro ⟨i, j, k, hi, hj, hk, hij, hik, hjk, rfl, rfl, rfl⟩
    refine ⟨⟨i, j, k, by omega, by omega, by omega, hij, hik, hjk, rfl, rfl, rfl⟩, ?_⟩
    rw [Machine.or_and, Machine.or_and, (shift_low i (by omega)).2 hi, (shift_low j (by omega)).2 hj,
      (shift_low k (by omega)).2 hk]
    rfl
  · rintro ⟨⟨i, j, k, hi, hj, hk, hij, hik, hjk, rfl, rfl, rfl⟩, hlow⟩
    rw [Machine.or_and, Machine.or_and] at hlow
    obtain ⟨hlij, hlk⟩ := or_eq_zero hlow
    obtain ⟨hli, hlj⟩ := or_eq_zero hlij
    exact ⟨i, j, k, (shift_low i hi).1 hli, (shift_low j hj).1 hlj, (shift_low k hk).1 hlk, hij, hik, hjk,
      rfl, rfl, rfl⟩

/-! ### The admitted configurations (R8) -/

theorem Config.controlMasksOk_iff (c : Config) : c.controlMasksOk = true ↔ BitsBelow 4 c.rsMask c.enMask c.blMask := by
  rw [bitsBelow_four_iff, ← threeBits_iff, Config.controlMasksOk, Bool.and_eq_true, beq_iff_eq]

theorem Config.geometryOk_iff (c : Config) :
    c.geometryOk = true ↔
      (1 ≤ c.nRows ∧ c.nRows ≤ 4 ∧ c.rowBase.length = c.nRows) ∧ 1 ≤ c.nCols ∧ c.nCols ≤ 20 := by
  simp [Config.geometryOk, and_assoc]

/-- R8 (a) to (d), item by item. -/
theorem Config.wf_iff (c : Config) :
    c.wf = true ↔
      BitsBelow 4 c.rsMask c.enMask c.blMask ∧ BitsBelow 8 c.dMask c.cMask c.bMask ∧
        c.cmdDisplayControl &&& (c.dMask ||| c.cMask ||| c.bMask) = 0x00#8 ∧
        (1 ≤ c.nRows ∧ c.nRows ≤ 4 ∧ c.rowBase.length = c.nRows) ∧ 1 ≤ c.nCols ∧ c.nCols ≤ 20 := by
  have hflags : c.flagMasksOk = true ↔ BitsBelow 8 c.dMask c.cMask c.bMask := threeBits_iff
  have hopcode : c.opcodeDisjoint = true ↔ c.cmdDisplayControl &&& (c.dMask ||| c.cMask ||| c.bMask) = 0x00#8 :=
    beq_iff_eq
  rw [Config.wf, Bool.and_eq_true, Bool.and_eq_true, Bool.and_eq_true, and_assoc, and_assoc, controlMasksOk_iff,
    hflags, hopcode, geometryOk_iff]

end Sys2Proof

namespace Sys2Proof.Machine

/-! ### What is refused (R8) -/

theorem finish_ne_refused (f : Flow) (r : Refusal) : f.finish ≠ .refused r := by
  cases f <;> simp

/-- Performing pseudocode is refused for the configuration exactly when that is not admitted. -/
theorem perform_ne_refused_iff (op : State → Flow) (s : State) :
    perform op s ≠ .refused .configNotAdmitted ↔ s.cfg.wf = true := by
  by_cases hw : s.cfg.wf = true
  · simp [perform_wf hw, hw, finish_ne_refused]
  · simp [perform, hw]

/-- Every operation is its pseudocode, performed. -/
theorem exec_eq_perform (i : Instr) (s : State) : ∃ op, exec i s = perform op s := by
  cases i <;> exact ⟨_, rfl⟩

theorem idle_ne_refused_iff (s : State) : idle s ≠ .refused .configNotAdmitted ↔ s.cfg.wf = true := by
  by_cases hw : s.cfg.wf = true <;> simp [idle, hw]

/-- A step is refused for its configuration exactly when that is not admitted. -/
theorem step_ne_refused_iff (s : State) : step s ≠ .refused .configNotAdmitted ↔ s.cfg.wf = true := by
  rcases step_cases s with ⟨i, rest, -, hst⟩ | ⟨why, rest, -, hst⟩ | ⟨-, hst⟩
  · obtain ⟨op, hop⟩ := exec_eq_perform i (s.consume rest)
    rw [hst, hop]
    exact perform_ne_refused_iff op _
  · rw [hst]
    exact perform_ne_refused_iff _ s
  · rw [hst]
    exact idle_ne_refused_iff s

/-- Settles O9: a step refuses exactly the records `Config.wf` does not admit, and `Config.wf_iff` reads that as R8. -/
theorem unadmittedConfigIsRefused : Obligations.UnadmittedConfigIsRefused := fun s =>
  (step_ne_refused_iff s).trans s.cfg.wf_iff

/-! ### The configuration is fixed (R7, R51) -/

/-- No effect of an operation writes the configuration. -/
theorem keptByInit_cfg (c : Config) : KeptByInit fun s => s.cfg = c where
  tx _ _ _ _ hs := hs
  wait _ _ _ hs := hs
  report _ _ hs := hs
  writeDcf _ _ hs := hs
  tx4 _ _ hs := hs
  mark _ _ _ _ hs := hs

/-- Settles O35: a property that every effect of an operation keeps, and taking bytes off the port too. -/
theorem stepKeepsConfig : Obligations.StepKeepsConfig := fun s _ hn =>
  (keptByInit_cfg s.cfg).step (fun _ _ hs => hs) rfl hn

/-! ### The frames ENC sends are legal (R44, R61, R62, R64, R66, R67) -/

section
variable {c : Config} {n : Byte}

/-- A byte packed with backlight high is one ENC may send. -/
theorem packedOk_pack (h : c.wf = true) (hn : n &&& 0x0F#8 = 0x00#8) (rs en : Bool) :
    packedOk c (pack c n rs true en) = true := by
  simp [packedOk, pack_bl h hn, pack_unassigned hn]

/-- A nibble packed with enable high and then low is an enable pulse. -/
theorem pulseOk_pack (h : c.wf = true) (hn : n &&& 0x0F#8 = 0x00#8) (rs : Bool) :
    pulseOk c (pack c n rs true true) (pack c n rs true false) = true := by
  have hraised : pack c n rs true true = pack c n rs true false ||| c.enMask := by simp [pack]
  simp only [pulseOk, Bool.and_eq_true, beq_iff_eq]
  exact ⟨⟨⟨packedOk_pack h hn rs true, packedOk_pack h hn rs false⟩, pack_en h hn rs true false⟩, hraised⟩

theorem frameOk_frame8 (h : c.wf = true) (rs : Bool) (v : Byte) : frameOk c (frame8 c rs v) = true := by
  simp [frame8, frameOk, pulseOk_pack h, pack_rs h, highNibble_clear, lowNibble_clear]

theorem frameOk_frame4 (h : c.wf = true) (v : Byte) : frameOk c (frame4 c false v) = true := by
  simp [frame4, frameOk, pulseOk_pack h, pack_rs h, highNibble_clear]

theorem packedOk_of_pulseOk {raised lowered : Byte} (h : pulseOk c raised lowered = true) :
    packedOk c raised = true ∧ packedOk c lowered = true := by
  simp only [pulseOk, Bool.and_eq_true] at h
  exact h.1.1

/-- The payload of a legal frame is legal bytes. -/
theorem packedOk_of_mem_payload {buf : List Byte} (h : frameOk c buf = true) {b : Byte} (hb : b ∈ payload buf) :
    packedOk c b = true := by
  unfold frameOk at h
  split at h
  · simp only [Bool.and_eq_true] at h
    obtain ⟨⟨⟨-, hhigh⟩, hlow⟩, -⟩ := h
    obtain ⟨h1, h2⟩ := packedOk_of_pulseOk hhigh
    obtain ⟨h3, h4⟩ := packedOk_of_pulseOk hlow
    simp only [payload, List.drop_succ_cons, List.drop_zero, List.mem_cons, List.not_mem_nil, or_false] at hb
    rcases hb with rfl | rfl | rfl | rfl <;> assumption
  · simp only [Bool.and_eq_true] at h
    obtain ⟨⟨-, hpulse⟩, -⟩ := h
    obtain ⟨h1, h2⟩ := packedOk_of_pulseOk hpulse
    simp only [payload, List.drop_succ_cons, List.drop_zero, List.mem_cons, List.not_mem_nil, or_false] at hb
    rcases hb with rfl | rfl <;> assumption
  · cases h

end

/-- What reaches the expander is of the payload (R48). -/
theorem mem_payload_of_mem_delivered {buf : List Byte} {r : TxReply} {b : Byte} (h : b ∈ delivered buf r) :
    b ∈ payload buf := by
  cases r with
  | ok => exact h
  | fail n => exact List.mem_of_mem_take h

/-! ### The invariant of a safe run -/

/-- A `Tx` of a legal frame keeps the invariant, whatever the answer. -/
theorem State.Inv.afterTx {s : State} (h : s.Inv) {buf : List Byte} (hbuf : frameOk s.cfg buf = true) (r : TxReply) :
    (s.afterTx buf r).Inv where
  cfg_wf := h.cfg_wf
  dcf_fields := h.dcf_fields
  initStep_le := h.initStep_le
  dcf_written := h.dcf_written
  trace_ok := by
    simp only [afterTx_trace, afterTx_cfg, List.forall_mem_append, List.forall_mem_singleton]
    exact ⟨h.trace_ok, hbuf⟩
  port_ok := by
    simp only [afterTx_port, afterTx_cfg, List.forall_mem_append]
    exact ⟨h.port_ok, fun b hb => packedOk_of_mem_payload hbuf (mem_payload_of_mem_delivered hb)⟩
  txCount_eq := by simp [h.txCount_eq]

theorem State.Inv.afterWait {s : State} (h : s.Inv) {ms : Nat} (hms : ms ≠ 0) : (s.afterWait ms).Inv where
  cfg_wf := h.cfg_wf
  dcf_fields := h.dcf_fields
  initStep_le := h.initStep_le
  dcf_written := h.dcf_written
  trace_ok := by
    simp only [afterWait_trace, afterWait_cfg, List.forall_mem_append, List.forall_mem_singleton]
    exact ⟨h.trace_ok, decide_eq_true (Nat.pos_of_ne_zero hms)⟩
  port_ok := h.port_ok
  txCount_eq := by simp [h.txCount_eq]

/-- A write to DCF leaves no bit outside its fields (R22). -/
theorem State.Inv.writeDcf {s : State} (h : s.Inv) (v : Byte) : (s.writeDcf v).Inv where
  cfg_wf := h.cfg_wf
  dcf_fields d hd := by
    cases hd
    simp [BitVec.and_assoc]
  initStep_le := h.initStep_le
  dcf_written _ := by simp
  trace_ok := h.trace_ok
  port_ok := h.port_ok
  txCount_eq := h.txCount_eq

/-- A mark of INIT keeps the invariant, if one of 5 or more finds DCF written (R163). -/
theorem State.Inv.setInitStep {s : State} (h : s.Inv) {k : Nat} (hk : k ≤ 8) (hd : 5 ≤ k → s.dcf ≠ none) :
    (s.setInitStep k).Inv :=
  { h with initStep_le := hk, dcf_written := hd }

/-- Statuses are no part of the invariant. -/
theorem State.Inv.report {s : State} (h : s.Inv) (st : Status) : (s.report st).Inv := { h with }

/-- Nor is the operation port. -/
theorem State.Inv.consume {s : State} (h : s.Inv) (rest : List Byte) : (s.consume rest).Inv := { h with }

/-- Every effect an operation is made of keeps the invariant. -/
theorem keptByInit_inv : KeptByInit State.Inv where
  tx _ rs v r hs := hs.afterTx (frameOk_frame8 hs.cfg_wf rs v) r
  wait _ _ h0 hs := hs.afterWait h0
  report _ st hs := hs.report st
  writeDcf _ v hs := hs.writeDcf v
  tx4 s r hs := hs.afterTx (frameOk_frame4 hs.cfg_wf s.cfg.cmd4Bit) r
  mark _ _ hk hd hs := hs.setInitStep hk hd

/-- Settles O44: every effect an operation is made of keeps the invariant, and so does taking bytes off the port. -/
theorem stepKeepsInvariant : Obligations.StepKeepsInvariant := fun _ _ hs hn =>
  keptByInit_inv.step (fun _ rest ht => ht.consume rest) hs hn

end Sys2Proof.Machine
end

section
/-!
PROOFS, family 10_state.md: the state after reset (R30), what a completed INIT leaves (R32), that no operation depends on
the past (R24, R25, R29), and that DCF is what the last DISPLAY_CONTROL command carried (R31).
-/

namespace Sys2Proof.Machine

/-! ### Reset (R30) -/

/-- Settles O42: the machine `core` starts is the default one of these. -/
theorem resetLeaves : Obligations.ResetLeaves := by
  rintro s (rfl | ⟨c, rfl⟩) <;> exact ⟨rfl, rfl, rfl⟩

theorem resetWith_inv {c : Config} (h : c.wf = true) : (State.resetWith c).Inv where
  cfg_wf := h
  dcf_fields _ hd := nomatch hd
  initStep_le := by simp
  dcf_written h5 := absurd h5 (by simp)
  trace_ok := by simp
  port_ok := by simp
  txCount_eq := rfl

/-- Settles O43: an admitted configuration is all the invariant asks of a reset machine. -/
theorem resetMeetsInvariant : Obligations.ResetMeetsInvariant :=
  ⟨fun _ => resetWith_inv, resetWith_inv (by decide)⟩

/-! ### The pseudocode of each operation -/

/-- What each operation performs (R90). -/
def pseudocode : Instr → State → Flow
  | .init => initSequence
  | .clear => fun s => sendThenWait false s.cfg.cmdClear s.cfg.tClear s
  | .setCursor row col => positionCursor row col
  | .sendData v => send8 true v
  | .sendCmd v => send8 false v
  | .setDisplay b => fun s => toggle s.cfg.dMask b s
  | .setCursorDisplay b => fun s => toggle s.cfg.cMask b s
  | .setCursorBlink b => fun s => toggle s.cfg.bMask b s
  | .writeString chars => sendChars false chars

theorem exec_eq_perform_pseudocode (i : Instr) (s : State) : exec i s = perform (pseudocode i) s := by
  cases i <;> rfl

/-! ### What a completed INIT leaves (R32) -/

/-- `t` is where an INIT started in `s` stands when it has written `d` to DCF (or nothing, `s.dcf`) and completed `k`
steps. -/
def State.InitAt (s : State) (d : Option Byte) (k : Nat) (t : State) : Prop :=
  ∃ events reached, t = { s.ran events reached with dcf := d, initStep := k }

section
variable {s t : State} {d : Option Byte} {k : Nat}

theorem State.InitAt.ran (h : s.InitAt d k t) (events : List Event) (reached : List Byte) :
    s.InitAt d k (t.ran events reached) := by
  obtain ⟨events₀, reached₀, rfl⟩ := h
  refine ⟨events₀ ++ events, reached₀ ++ reached, ?_⟩
  rw [← State.ran_ran]
  rfl

theorem State.InitAt.afterTx (h : s.InitAt d k t) (buf : List Byte) (r : TxReply) : s.InitAt d k (t.afterTx buf r) :=
  t.afterTx_eq_ran buf r ▸ h.ran _ _

theorem State.InitAt.afterWait (h : s.InitAt d k t) (ms : Nat) : s.InitAt d k (t.afterWait ms) :=
  t.afterWait_eq_ran ms ▸ h.ran _ _

theorem State.InitAt.setInitStep (h : s.InitAt d k t) (k' : Nat) : s.InitAt d k' (t.setInitStep k') := by
  obtain ⟨events, reached, rfl⟩ := h
  exact ⟨events, reached, rfl⟩

theorem State.InitAt.writeDcf (h : s.InitAt d k t) (v : Byte) :
    s.InitAt (some (v &&& dcfMask s.cfg)) k (t.writeDcf v) := by
  obtain ⟨events, reached, rfl⟩ := h
  exact ⟨events, reached, rfl⟩

theorem State.InitAt.cfg_eq (h : s.InitAt d k t) : t.cfg = s.cfg := by
  obtain ⟨events, reached, rfl⟩ := h
  rfl

theorem State.InitAt.dcf_eq (h : s.InitAt d k t) : t.dcf = d := by
  obtain ⟨events, reached, rfl⟩ := h
  rfl

theorem State.InitAt.initStep_eq (h : s.InitAt d k t) : t.initStep = k := by
  obtain ⟨events, reached, rfl⟩ := h
  rfl

theorem State.InitAt.statuses_eq (h : s.InitAt d k t) : t.statuses = s.statuses := by
  obtain ⟨events, reached, rfl⟩ := h
  rfl

/-- How INIT started in `s` may stop early: by a failed `Tx`, wherever it stands (R119). -/
def State.InitCut (s : State) (st : Status) (t : State) : Prop :=
  st = .transportFailure ∧ ∃ d k, s.InitAt d k t

/-- Frames sent one after the other neither write DCF nor set a mark. -/
theorem sendAll_initAt (h : s.InitAt d k t) (frames : List (List Byte × Nat)) :
    (sendAll frames t).Holds (s.InitAt d k) s.InitCut := by
  induction frames generalizing t with
  | nil => exact h
  | cons f rest ih =>
    obtain ⟨buf, ms⟩ := f
    have hsend : (txOrRaise buf t).Holds (s.InitAt d k) s.InitCut :=
      txOrRaise_holds (fun _ => h.afterTx buf .ok) fun n _ => ⟨rfl, d, k, h.afterTx buf (.fail n)⟩
    exact (hsend.andThen fun u hu => waitMs_holds (fun _ => hu) fun _ => hu.afterWait ms).andThen fun u hu => ih hu

/-- The frames of a step and its mark. -/
theorem sendMark_initAt (h : s.InitAt d k t) (frames : List (List Byte × Nat)) (k' : Nat) :
    (sendMark frames k' t).Holds (s.InitAt d k') s.InitCut :=
  (sendAll_initAt h frames).andThen fun _ hu => hu.setInitStep k'

end

/-- INIT ends with DCF = `D_MASK` and all eight steps completed, or is cut short by a failed `Tx`. -/
theorem initSequence_holds (s : State) :
    (initSequence s).Holds (s.InitAt (some s.cfg.dMask) 8) s.InitCut := by
  have h0 : s.InitAt s.dcf 0 (s.setInitStep 0) := ⟨[], [], by simp [State.setInitStep]⟩
  have h1 : (initStep1 (s.setInitStep 0)).Holds (s.InitAt s.dcf 1) s.InitCut :=
    Flow.Holds.andThen (P := s.InitAt s.dcf 0)
      (waitMs_holds (fun _ => h0) fun _ => h0.afterWait _) fun t ht => ht.setInitStep 1
  have h4 := ((h1.andThen fun t ht => initStep2_eq t ▸ sendMark_initAt ht _ 2).andThen
    fun t ht => initStep3_eq t ▸ sendMark_initAt ht _ 3).andThen fun t ht => initStep4_eq t ▸ sendMark_initAt ht _ 4
  have h5 : ∀ t, s.InitAt s.dcf 4 t → (initStep5 t).Holds (s.InitAt (some 0x00#8) 5) s.InitCut := fun t ht => by
    rw [initStep5_eq]
    exact sendMark_initAt (by simpa using ht.writeDcf 0x00#8) _ 5
  have h7 := ((h4.andThen h5).andThen fun t ht => initStep6_eq t ▸ sendMark_initAt ht _ 6).andThen
    fun t ht => initStep7_eq t ▸ sendMark_initAt ht _ 7
  refine h7.andThen fun t ht => ?_
  have hw : s.InitAt (some s.cfg.dMask) 7 (t.writeDcf t.cfg.dMask) := by
    simpa [dMask_and_dcfMask, ht.cfg_eq] using ht.writeDcf t.cfg.dMask
  rw [initStep8_eq (by simp [State.readDcf, ht.dcf_eq])]
  exact sendMark_initAt hw _ 8

/-- Settles O25: of the two ways `initSequence_holds` names, only the completed one returns `Ok`. -/
theorem initOkLeavesDisplayOn : Obligations.InitOkLeavesDisplayOn := by
  intro s s' hn hok
  have hinit := initSequence_holds s
  obtain ⟨-, ⟨t, ht, rfl⟩ | ⟨st, t, ht, rfl⟩⟩ := perform_next hn <;> rw [ht] at hinit
  · refine ⟨hinit.dcf_eq, hinit.initStep_eq, fun hdef => ?_⟩
    rw [State.report_dcf, hinit.dcf_eq, hdef]
    rfl
  · obtain ⟨rfl, d, k, hat⟩ := hinit
    simp [hat.statuses_eq] at hok


/-! ### The loop of WRITESTRING by the answer it gets (R152) -/

section
variable {s : State} {failed : Bool} {ch : Byte} {rest : List Byte}

theorem sendChars_never (h : s.replyAt 0 = none) : sendChars failed (ch :: rest) s = .stuck .transportNeverReturns := by
  simp [sendChars, transmit, h]

theorem sendChars_ok (h : s.replyAt 0 = some .ok) :
    sendChars failed (ch :: rest) s = sendChars failed rest (s.afterTx (frame8 s.cfg true ch) .ok) := by
  simp [sendChars, transmit, h]

theorem sendChars_fail {n : Nat} (h : s.replyAt 0 = some (.fail n)) :
    sendChars failed (ch :: rest) s =
      if s.cfg.wsOnFail = .stop then endString true (s.afterTx (frame8 s.cfg true ch) (.fail n))
      else sendChars true rest (s.afterTx (frame8 s.cfg true ch) (.fail n)) := by
  cases hws : s.cfg.wsOnFail <;> simp [sendChars, transmit, h, hws]

end

/-! ### The past is forgotten (R24, R25, R29) -/

/-- A past to put behind a state: how the ghost counter is read, and trace, statuses and expander history so far. -/
structure Past where
  ghost : Nat → Nat
  trace : List Event
  statuses : List Status
  port : List Byte

/-- What is left of a past behind an operation: INIT sets the ghost counter itself (R110), the others leave it alone. -/
def Past.seenBy (p : Past) (i : Instr) : Past := if i = .init then { p with ghost := id } else p

@[simp] theorem Past.seenBy_trace (p : Past) (i : Instr) : (p.seenBy i).trace = p.trace := by
  unfold seenBy; split <;> rfl
@[simp] theorem Past.seenBy_statuses (p : Past) (i : Instr) : (p.seenBy i).statuses = p.statuses := by
  unfold seenBy; split <;> rfl
@[simp] theorem Past.seenBy_port (p : Past) (i : Instr) : (p.seenBy i).port = p.port := by
  unfold seenBy; split <;> rfl

/-- `s` with the past `p` behind what `s` holds of trace and expander history, and with the statuses of `p`. -/
def State.behind (s : State) (p : Past) : State :=
  s.withPast (p.ghost s.initStep) (p.trace ++ s.trace) p.statuses (p.port ++ s.port)

/-- Apply a function to the state a flow hands on or raises in. -/
def Flow.map (φ : State → State) : Flow → Flow
  | .go s => .go (φ s)
  | .raise st s => .raise st (φ s)
  | .stuck f => .stuck f

/-- The pseudocode runs behind the past `p` as it does without it. -/
def Passes (p : Past) (op : State → Flow) : Prop := ∀ s : State, op (s.behind p) = (op s).map (·.behind p)

section
variable (s : State) (p : Past)

@[simp] theorem State.behind_cfg : (s.behind p).cfg = s.cfg := rfl
@[simp] theorem State.behind_delayHang : (s.behind p).delayHang = s.delayHang := rfl
@[simp] theorem State.behind_trace : (s.behind p).trace = p.trace ++ s.trace := rfl
@[simp] theorem State.behind_statuses : (s.behind p).statuses = p.statuses := rfl
@[simp] theorem State.behind_port : (s.behind p).port = p.port ++ s.port := rfl
@[simp] theorem State.readDcf_behind : (s.behind p).readDcf = s.readDcf := rfl
@[simp] theorem State.replyAt_behind (k : Nat) : (s.behind p).replyAt k = s.replyAt k := rfl

theorem State.afterTx_behind (buf : List Byte) (r : TxReply) :
    (s.behind p).afterTx buf r = (s.afterTx buf r).behind p := by
  simp [behind, withPast, afterTx]

theorem State.afterWait_behind (ms : Nat) : (s.behind p).afterWait ms = (s.afterWait ms).behind p := by
  simp [behind, withPast, afterWait]

/-- The second piece starts in the state the first hands on, so the past passes through both. -/
theorem Passes.andThen {p : Past} {f g : State → Flow} (hf : Passes p f) (hg : Passes p g) :
    Passes p fun s => (f s).andThen g := by
  intro s
  simp only [hf s]
  cases f s with
  | go t => exact hg t
  | raise st t => rfl
  | stuck e => rfl

theorem txOrRaise_passes (buf : List Byte) : Passes p (txOrRaise buf) := by
  intro s
  cases h : s.replyAt 0 with
  | none => rw [txOrRaise_never h, txOrRaise_never (by simpa using h)]; rfl
  | some r =>
    cases r with
    | ok => rw [txOrRaise_ok h, txOrRaise_ok (by simpa using h), s.afterTx_behind]; rfl
    | fail n => rw [txOrRaise_fail h, txOrRaise_fail (by simpa using h), s.afterTx_behind]; rfl

theorem waitMs_passes (ms : Nat) : Passes p (waitMs ms) := by
  intro s
  simp only [waitMs, s.behind_delayHang, s.afterWait_behind]
  split
  · rfl
  · split <;> rfl

theorem send8_passes (rs : Bool) (v : Byte) : Passes p (send8 rs v) := fun s => txOrRaise_passes p (frame8 s.cfg rs v) s

theorem sendThenWait_passes (rs : Bool) (v : Byte) (ms : Nat) : Passes p (sendThenWait rs v ms) :=
  (send8_passes p rs v).andThen (waitMs_passes p ms)

theorem sendFlags_passes (ms : Nat) : Passes p (sendFlags ms) := by
  intro s
  simp only [sendFlags, s.readDcf_behind]
  cases s.readDcf with
  | none => rfl
  | some flags => exact sendThenWait_passes p _ _ _ s

theorem toggle_passes (m : Byte) (b : OnOff) : Passes p (toggle m b) := by
  intro s
  simp only [toggle, s.readDcf_behind]
  cases s.readDcf with
  | none => rfl
  | some flags => exact sendFlags_passes p _ (s.writeDcf (withField m b flags))

theorem positionCursor_passes (row col : Byte) : Passes p (positionCursor row col) := by
  intro s
  simp only [positionCursor, s.behind_cfg]
  cases memReadRowTab s.cfg (rowIndex s.cfg row) with
  | none => rfl
  | some base => exact send8_passes p _ _ s

theorem endString_passes (failed : Bool) : Passes p (endString failed) := by
  intro s
  cases failed <;> rfl

theorem sendChars_passes (failed : Bool) (chars : List Byte) : Passes p (sendChars failed chars) := by
  induction chars generalizing failed with
  | nil => exact endString_passes p failed
  | cons ch rest ih =>
    intro s
    cases h : s.replyAt 0 with
    | none =>
      rw [sendChars_never h, sendChars_never (s := s.behind p) (by simpa using h)]
      rfl
    | some r =>
      cases r with
      | ok =>
        rw [sendChars_ok h, sendChars_ok (s := s.behind p) (by simpa using h), s.afterTx_behind]
        exact ih failed _
      | fail n =>
        rw [sendChars_fail h, sendChars_fail (s := s.behind p) (by simpa using h), s.afterTx_behind]
        cases hws : s.cfg.wsOnFail with
        | stop => simpa [hws] using endString_passes p true _
        | goOn => simpa [hws] using ih true _

end

/-! #### INIT, whose marks are its own -/

section
variable {p : Past} (hp : p.ghost = id)
include hp

/-- A mark shows through a past that reads the ghost counter as it is. -/
theorem completeStep_passes (k : Nat) : Passes p (completeStep k) := by
  intro s
  simp [completeStep, Flow.map, State.behind, State.withPast, State.setInitStep, hp]

theorem sendThenMark_passes (v : Byte) (ms k : Nat) :
    Passes p fun s => (sendThenWait false v ms s).andThen (completeStep k) :=
  (sendThenWait_passes p false v ms).andThen (completeStep_passes hp k)

theorem flagsThenMark_passes (v : Byte) (ms k : Nat) :
    Passes p fun s => (sendFlags ms (s.writeDcf v)).andThen (completeStep k) := fun s =>
  ((sendFlags_passes p ms).andThen (completeStep_passes hp k)) (s.writeDcf v)

theorem initStep1_passes : Passes p initStep1 := fun s =>
  ((waitMs_passes p s.cfg.tPowerOn).andThen (completeStep_passes hp 1)) s

theorem initStep2_passes : Passes p initStep2 := fun s =>
  have start := sendThenWait_passes p false s.cfg.cmdStartInit
  ((((start s.cfg.tInit1).andThen (start s.cfg.tInit2)).andThen (start s.cfg.tInit3)).andThen
    (completeStep_passes hp 2)) s

theorem initStep3_passes : Passes p initStep3 := fun s =>
  (((txOrRaise_passes p (frame4 s.cfg false s.cfg.cmd4Bit)).andThen (waitMs_passes p s.cfg.tInit4Bit)).andThen
    (completeStep_passes hp 3)) s

theorem initStep8_passes : Passes p initStep8 := by
  intro s
  simp only [initStep8, s.readDcf_behind]
  cases s.readDcf with
  | none => rfl
  | some flags => exact flagsThenMark_passes hp (flags ||| s.cfg.dMask) s.cfg.tInitDon 8 s

theorem initSteps_pass :
    Passes p fun s => (((((((initStep1 s).andThen initStep2).andThen initStep3).andThen initStep4).andThen
      initStep5).andThen initStep6).andThen initStep7).andThen initStep8 :=
  (((((((initStep1_passes hp).andThen (initStep2_passes hp)).andThen (initStep3_passes hp)).andThen
    fun s => sendThenMark_passes hp s.cfg.cmdFunctionSet s.cfg.tFuncSet 4 s).andThen
    fun s => flagsThenMark_passes hp 0x00#8 s.cfg.tInitDoff 5 s).andThen
    fun s => sendThenMark_passes hp s.cfg.cmdClear s.cfg.tInitClear 6 s).andThen
    fun s => sendThenMark_passes hp s.cfg.cmdEntryMode s.cfg.tEntry 7 s).andThen (initStep8_passes hp)

end

/-- Every operation runs behind a past as it does without it. -/
theorem pseudocode_behind (i : Instr) (s : State) (p : Past) :
    pseudocode i (s.behind p) = (pseudocode i s).map (·.behind (p.seenBy i)) := by
  cases i with
  | init => exact initSteps_pass (p := { p with ghost := id }) rfl (s.setInitStep 0)
  | clear => exact sendThenWait_passes p _ _ _ s
  | setCursor row col => exact positionCursor_passes p row col s
  | sendData v => exact send8_passes p true v s
  | sendCmd v => exact send8_passes p false v s
  | setDisplay b => exact toggle_passes p _ b s
  | setCursorDisplay b => exact toggle_passes p _ b s
  | setCursorBlink b => exact toggle_passes p _ b s
  | writeString chars => exact sendChars_passes p false chars s

/-- A state without a past. -/
def State.fresh (s : State) : State := s.withPast 0 [] [] []

/-- The past of a state. -/
def State.past (s : State) : Past := ⟨fun _ => s.initStep, s.trace, s.statuses, s.port⟩

theorem State.withPast_eq_behind (s : State) (k : Nat) (trace : List Event) (statuses : List Status)
    (port : List Byte) : s.withPast k trace statuses port = s.fresh.behind ⟨fun _ => k, trace, statuses, port⟩ := by
  simp [behind, fresh, withPast]

theorem State.fresh_behind_past (s : State) : s.fresh.behind s.past = s :=
  (s.withPast_eq_behind s.initStep s.trace s.statuses s.port).symm

/-- An operation that returns does so with one status and from one state, whatever is then done to that state. -/
theorem Flow.finish_map_next {f : Flow} {φ : State → State} {s' : State} (h : (f.map φ).finish = .next s') :
    ∃ t st, s' = (φ t).report st ∧ ∀ ψ, (f.map ψ).finish = .next ((ψ t).report st) := by
  cases f with
  | go t => cases h; exact ⟨t, .ok, rfl, fun _ => rfl⟩
  | raise st t => cases h; exact ⟨t, st, rfl, fun _ => rfl⟩
  | stuck e => cases h

/-- The end of an operation, seen from another past. -/
theorem State.report_behind_seenBy (t : State) (i : Instr) (st : Status) (p : Past) (k : Nat) (trace : List Event)
    (statuses : List Status) (port : List Byte) :
    (t.behind (Past.seenBy ⟨fun _ => k, trace, statuses, port⟩ i)).report st =
      ((t.behind (p.seenBy i)).report st).withPast
        (if i = .init then ((t.behind (p.seenBy i)).report st).initStep else k)
        (trace ++ t.trace) (statuses ++ [st]) (port ++ t.port) := by
  by_cases hi : i = .init <;> simp [hi, Past.seenBy, behind, withPast, report]

/-- Settles O46: run the operation from the state without a past and put either past behind what it reached. -/
theorem pastIsForgotten : Obligations.PastIsForgotten := by
  intro s s' i k trace statuses port hn
  rw [exec_eq_perform_pseudocode] at hn ⊢
  have hw : s.cfg.wf = true := (perform_next hn).1
  have hrun := pseudocode_behind i s.fresh s.past
  rw [s.fresh_behind_past] at hrun
  rw [perform_wf hw, hrun] at hn
  obtain ⟨t, st, rfl, hany⟩ := Flow.finish_map_next hn
  refine ⟨t.trace, st, t.port, by simp [State.past], by simp [State.past], by simp [State.past], ?_⟩
  rw [perform_wf (s := s.withPast k trace statuses port) hw, s.withPast_eq_behind, pseudocode_behind, hany,
    State.report_behind_seenBy]

/-! ### DCF is what the last DISPLAY_CONTROL command carried (R31) -/

theorem ushiftRight_four (x : Byte) : x >>> 4 = (x &&& 0xF0#8) >>> 4 := by
  revert x; decide

/-- A full frame carries its byte (R69). -/
theorem frameValue_frame8 {c : Config} (h : c.wf = true) (rs : Bool) (v : Byte) :
    frameValue (frame8 c rs v) = some v := by
  simp only [frame8, frameValue]
  rw [ushiftRight_four, pack_nibble h (highNibble_clear v), pack_nibble h (lowNibble_clear v), nibbles_join]

/-- A full frame carries its register select (R69). -/
theorem frameRs_frame8 {c : Config} (h : c.wf = true) (rs : Bool) (v : Byte) :
    frameRs c (frame8 c rs v) = some rs := by
  simp only [frame8, frameRs, pack_rs_ne h (highNibble_clear v)]

theorem controlOf_data {c : Config} (h : c.wf = true) (v : Byte) : controlOf c (.tx (frame8 c true v)) = none := by
  simp [controlOf, frameRs_frame8 h]

theorem controlOf_command {c : Config} (h : c.wf = true) (v : Byte) :
    controlOf c (.tx (frame8 c false v)) = if isControl c v then some v else none := by
  simp [controlOf, frameRs_frame8 h, frameValue_frame8 h]

theorem lastControl_append_singleton (c : Config) (events : List Event) (e : Event) :
    lastControl c (events ++ [e]) = (controlOf c e).or (lastControl c events) := by
  cases h : controlOf c e <;> simp [lastControl, h]

/-- The DISPLAY_CONTROL opcode with any flags is a DISPLAY_CONTROL byte. -/
theorem isControl_displayControl {c : Config} (h : c.wf = true) (v : Byte) :
    isControl c (displayControl c (v &&& dcfMask c)) = true := by
  have hop : c.cmdDisplayControl &&& ~~~dcfMask c = c.cmdDisplayControl := by
    ext i hi
    simpa using congrArg (·[i]) (Config.opcode_flags h)
  have hflags : v &&& dcfMask c &&& ~~~dcfMask c = 0x00#8 := by rw [BitVec.and_assoc]; simp
  simp [isControl, displayControl, or_and, hop, hflags]

/-- DCF, if written, is what the most recent DISPLAY_CONTROL byte of the trace carried. -/
def State.FlagsShown (s : State) : Prop :=
  ∀ d, s.readDcf = some d → lastControl s.cfg s.trace = some (displayControl s.cfg d)

/-- `s`, of configuration `c`, shows its flags: what every piece of pseudocode that sends no other DISPLAY_CONTROL byte
keeps, whatever the answers. -/
def ShowsFlags (c : Config) (s : State) : Prop := s.cfg = c ∧ s.FlagsShown

section
variable {c : Config} (hw : c.wf = true) {s : State}

theorem ShowsFlags.afterTx (h : ShowsFlags c s) {buf : List Byte} (hbuf : controlOf c (.tx buf) = none) (r : TxReply) :
    ShowsFlags c (s.afterTx buf r) := by
  obtain ⟨rfl, hs⟩ := h
  refine ⟨rfl, fun d hd => ?_⟩
  simpa [lastControl_append_singleton, hbuf] using hs d hd

theorem ShowsFlags.afterWait (h : ShowsFlags c s) (ms : Nat) : ShowsFlags c (s.afterWait ms) := by
  obtain ⟨rfl, hs⟩ := h
  refine ⟨rfl, fun d hd => ?_⟩
  simpa [lastControl_append_singleton, controlOf] using hs d hd

theorem ShowsFlags.txOrRaise (h : ShowsFlags c s) {buf : List Byte} (hbuf : controlOf c (.tx buf) = none) :
    (txOrRaise buf s).Keeps (ShowsFlags c) :=
  txOrRaise_holds (fun _ => h.afterTx hbuf .ok) fun n _ => h.afterTx hbuf (.fail n)

theorem ShowsFlags.waitMs (h : ShowsFlags c s) (ms : Nat) : (waitMs ms s).Keeps (ShowsFlags c) :=
  waitMs_holds (fun _ => h) fun _ => h.afterWait ms

include hw

theorem ShowsFlags.sendData (h : ShowsFlags c s) (v : Byte) : (send8 true v s).Keeps (ShowsFlags c) := by
  obtain ⟨rfl, hs⟩ := h
  exact ShowsFlags.txOrRaise ⟨rfl, hs⟩ (controlOf_data hw v)

theorem ShowsFlags.sendCmd (h : ShowsFlags c s) {v : Byte} (hv : isControl c v = false) :
    (send8 false v s).Keeps (ShowsFlags c) := by
  obtain ⟨rfl, hs⟩ := h
  exact ShowsFlags.txOrRaise ⟨rfl, hs⟩ (by simp [controlOf_command hw, hv])

theorem ShowsFlags.sendThenWait (h : ShowsFlags c s) {v : Byte} (hv : isControl c v = false) (ms : Nat) :
    (sendThenWait false v ms s).Keeps (ShowsFlags c) :=
  (h.sendCmd hw hv).andThen fun _ ht => ht.waitMs ms

/-- Writing DCF and sending it shows the new flags, whatever was shown before. -/
theorem showsFlags_sendFlags_writeDcf (hc : s.cfg = c) (v : Byte) (ms : Nat) :
    (sendFlags ms (s.writeDcf v)).Keeps (ShowsFlags c) := by
  subst hc
  have hsent : ∀ r, ShowsFlags s.cfg
      ((s.writeDcf v).afterTx (frame8 s.cfg false (displayControl s.cfg (v &&& dcfMask s.cfg))) r) := by
    refine fun r => ⟨rfl, fun d hd => ?_⟩
    have hd' : v &&& dcfMask s.cfg = d := by simpa using hd
    subst hd'
    simp [lastControl_append_singleton, controlOf_command hw, isControl_displayControl hw]
  rw [sendFlags_written (State.readDcf_writeDcf s v)]
  exact Flow.Keeps.andThen (txOrRaise_holds (fun _ => hsent .ok) fun n _ => hsent (.fail n)) fun _ ht => ht.waitMs ms

theorem ShowsFlags.toggle (h : ShowsFlags c s) (m : Byte) (b : OnOff) : (toggle m b s).Keeps (ShowsFlags c) := by
  unfold Machine.toggle
  cases s.readDcf with
  | none => exact h
  | some flags => exact showsFlags_sendFlags_writeDcf hw h.1 _ _

theorem ShowsFlags.sendChars (h : ShowsFlags c s) (failed : Bool) (chars : List Byte) :
    (sendChars failed chars s).Keeps (ShowsFlags c) := by
  have hend : ∀ (failed : Bool) {t : State}, ShowsFlags c t → (endString failed t).Keeps (ShowsFlags c) := by
    intro failed t ht
    cases failed <;> exact ht
  induction chars generalizing failed s with
  | nil => exact hend failed h
  | cons ch rest ih =>
    have ht : ∀ r, ShowsFlags c (s.afterTx (frame8 s.cfg true ch) r) :=
      h.afterTx (h.1 ▸ controlOf_data (h.1 ▸ hw) ch)
    cases hr : s.replyAt 0 with
    | none => rw [sendChars_never hr]; trivial
    | some r =>
      cases r with
      | ok => rw [sendChars_ok hr]; exact ih (ht .ok) failed
      | fail n =>
        rw [sendChars_fail hr]
        split
        · exact hend true (ht (.fail n))
        · exact ih (ht (.fail n)) true

theorem ShowsFlags.positionCursor (h : ShowsFlags c s) (hddram : ∀ a, isControl c (setDdram c a) = false)
    (row col : Byte) : (positionCursor row col s).Keeps (ShowsFlags c) := by
  unfold Machine.positionCursor
  cases memReadRowTab s.cfg (rowIndex s.cfg row) with
  | none => trivial
  | some base => exact h.sendCmd hw (h.1 ▸ hddram _)

/-- INIT sends DISPLAY_CONTROL in its steps 5 and 8 only, each time with DCF as just written. -/
theorem ShowsFlags.initSequence (h : ShowsFlags c s) (hd : controlDistinct c) :
    (initSequence s).Keeps (ShowsFlags c) := by
  obtain ⟨hstart, hfunction, hclear, hentry, -⟩ := hd
  have mark : ∀ (k : Nat) (t : State), ShowsFlags c t → (completeStep k t).Keeps (ShowsFlags c) := fun _ _ ht => ht
  have h1 : (initStep1 (s.setInitStep 0)).Keeps (ShowsFlags c) :=
    (ShowsFlags.waitMs (s := s.setInitStep 0) h _).andThen (mark 1)
  have h2 : ∀ t, ShowsFlags c t → (initStep2 t).Keeps (ShowsFlags c) := fun t ht => by
    have start : ∀ (ms : Nat) (u : State), ShowsFlags c u →
        (Machine.sendThenWait false t.cfg.cmdStartInit ms u).Keeps (ShowsFlags c) := fun ms _ hu =>
      hu.sendThenWait hw (ht.1 ▸ hstart) ms
    exact (((start _ t ht).andThen (start t.cfg.tInit2)).andThen (start t.cfg.tInit3)).andThen (mark 2)
  have h3 : ∀ t, ShowsFlags c t → (initStep3 t).Keeps (ShowsFlags c) := fun t ht =>
    ((ht.txOrRaise (buf := frame4 t.cfg false t.cfg.cmd4Bit) rfl).andThen fun _ hu => hu.waitMs _).andThen (mark 3)
  have h4 : ∀ t, ShowsFlags c t → (initStep4 t).Keeps (ShowsFlags c) := fun t ht =>
    (ht.sendThenWait hw (ht.1 ▸ hfunction) _).andThen (mark 4)
  have h5 : ∀ t, ShowsFlags c t → (initStep5 t).Keeps (ShowsFlags c) := fun t ht =>
    (showsFlags_sendFlags_writeDcf hw ht.1 _ _).andThen (mark 5)
  have h6 : ∀ t, ShowsFlags c t → (initStep6 t).Keeps (ShowsFlags c) := fun t ht =>
    (ht.sendThenWait hw (ht.1 ▸ hclear) _).andThen (mark 6)
  have h7 : ∀ t, ShowsFlags c t → (initStep7 t).Keeps (ShowsFlags c) := fun t ht =>
    (ht.sendThenWait hw (ht.1 ▸ hentry) _).andThen (mark 7)
  have h8 : ∀ t, ShowsFlags c t → (initStep8 t).Keeps (ShowsFlags c) := fun t ht => by
    unfold initStep8
    cases t.readDcf with
    | none => exact ht
    | some flags => exact (showsFlags_sendFlags_writeDcf hw ht.1 _ _).andThen (mark 8)
  exact ((((((h1.andThen h2).andThen h3).andThen h4).andThen h5).andThen h6).andThen h7).andThen h8

/-- Every operation but a SENDCMD of a DISPLAY_CONTROL byte (R203) keeps the flags shown, its failed `Tx` included. -/
theorem ShowsFlags.pseudocode (h : ShowsFlags c s) (hd : controlDistinct c) {i : Instr}
    (hi : ∀ v, i = .sendCmd v → isControl c v = false) : (pseudocode i s).Keeps (ShowsFlags c) := by
  have ⟨_, _, hclear, _, hddram⟩ := hd
  cases i with
  | init => exact h.initSequence hw hd
  | clear => exact h.sendThenWait hw (h.1 ▸ hclear) _
  | setCursor row col => exact h.positionCursor hw hddram row col
  | sendData v => exact h.sendData hw v
  | sendCmd v => exact h.sendCmd hw (hi v rfl)
  | setDisplay b => exact h.toggle hw _ b
  | setCursorDisplay b => exact h.toggle hw _ b
  | setCursorBlink b => exact h.toggle hw _ b
  | writeString chars => exact h.sendChars hw false chars

end

/-- A status once returned stays in the record. -/
theorem keptByInit_mem_statuses (st : Status) : KeptByInit fun s => st ∈ s.statuses where
  tx _ _ _ _ hs := hs
  wait _ _ _ hs := hs
  report _ _ hs := List.mem_append_left _ hs
  writeDcf _ _ hs := hs
  tx4 _ _ hs := hs
  mark _ _ _ _ hs := hs

/-- Settles O45: the flags shown are kept whatever the transport answers, and without a failure now there was none before,
so they were shown then. -/
theorem dcfMatchesLastCommand : Obligations.DcfMatchesLastCommand := by
  intro s s' i hd hi hs hn hfail
  have hbefore : .transportFailure ∉ s.statuses := fun hmem => hfail ((keptByInit_mem_statuses _).exec hmem hn)
  have hshown : ShowsFlags s.cfg s := ⟨rfl, hs hbefore⟩
  rw [exec_eq_perform_pseudocode] at hn
  have hend : ShowsFlags s.cfg s' := perform_holds hn (hshown.pseudocode (perform_next hn).1 hd hi)
  exact hend.2

end Sys2Proof.Machine
end

section
/-!
PROOFS, family 20_memory.md: what of a frame reaches the expander (R48), and that the records of a run only grow at
their end while the operation port is read from its front (R47, R73).
-/

namespace Sys2Proof

/-! ### The decoder leaves an end of what it is given (R73, R77) -/

/-- The bytes a decoding leaves unread, if it reads any, are the end of `bytes`. -/
def Decoded.LeavesEndOf (bytes : List Byte) : Decoded → Prop
  | .instr _ rest => rest <:+ bytes
  | .illegal _ rest => rest <:+ bytes
  | .incomplete => True

theorem Decoded.LeavesEndOf.cons {bytes : List Byte} {d : Decoded} (h : d.LeavesEndOf bytes) (b : Byte) :
    d.LeavesEndOf (b :: bytes) := by
  cases d with
  | instr i rest => exact List.IsSuffix.trans h (List.suffix_cons b bytes)
  | illegal why rest => exact List.IsSuffix.trans h (List.suffix_cons b bytes)
  | incomplete => trivial

theorem decodeB_leavesEndOf (mk : Byte → Instr) (bytes : List Byte) : (decodeB mk bytes).LeavesEndOf bytes := by
  cases bytes with
  | nil => trivial
  | cons v rest => exact List.suffix_cons v rest

theorem decodeS_leavesEndOf (opcode : Byte) (mk : OnOff → Instr) (bytes : List Byte) :
    (decodeS opcode mk bytes).LeavesEndOf bytes := by
  cases bytes with
  | nil => trivial
  | cons b rest =>
    simp only [decodeS]
    split <;> exact List.suffix_cons b rest

theorem decodeRC_leavesEndOf (mk : Byte → Byte → Instr) (bytes : List Byte) :
    (decodeRC mk bytes).LeavesEndOf bytes := by
  match bytes with
  | [] => trivial
  | [_] => trivial
  | row :: col :: rest => exact (List.suffix_cons col rest).trans (List.suffix_cons row (col :: rest))

theorem decodeV_leavesEndOf (mk : List Byte → Instr) (bytes : List Byte) : (decodeV mk bytes).LeavesEndOf bytes := by
  cases bytes with
  | nil => trivial
  | cons len rest =>
    simp only [decodeV]
    split
    · trivial
    · exact (List.drop_suffix len.toNat rest).trans (List.suffix_cons len rest)

theorem decodeOpcode_leavesEndOf (opcode : Byte) (rest : List Byte) : (decodeOpcode opcode rest).LeavesEndOf rest := by
  unfold decodeOpcode
  split
  · exact List.suffix_refl rest
  · exact List.suffix_refl rest
  · exact decodeRC_leavesEndOf _ rest
  · exact decodeB_leavesEndOf _ rest
  · exact decodeB_leavesEndOf _ rest
  · exact decodeS_leavesEndOf opcode _ rest
  · exact decodeS_leavesEndOf opcode _ rest
  · exact decodeS_leavesEndOf opcode _ rest
  · exact decodeV_leavesEndOf _ rest
  · exact List.suffix_refl rest

theorem decode_leavesEndOf (bytes : List Byte) : (decode bytes).LeavesEndOf bytes := by
  cases bytes with
  | nil => trivial
  | cons opcode rest => exact (decodeOpcode_leavesEndOf opcode rest).cons opcode

theorem suffix_of_decode_instr {bytes rest : List Byte} {i : Instr} (h : decode bytes = .instr i rest) :
    rest <:+ bytes := by
  simpa [h, Decoded.LeavesEndOf] using decode_leavesEndOf bytes

theorem suffix_of_decode_illegal {bytes rest : List Byte} {why : Illegal} (h : decode bytes = .illegal why rest) :
    rest <:+ bytes := by
  simpa [h, Decoded.LeavesEndOf] using decode_leavesEndOf bytes

end Sys2Proof

namespace Sys2Proof.Machine

/-! ### What of a frame reaches the expander (R48) -/

/-- Settles O13: the prefixes of a payload are what `take` leaves of it. -/
theorem failedFrameReachesAnyPrefix : Obligations.FailedFrameReachesAnyPrefix := by
  refine fun buf part => ⟨rfl, fun hprefix => ⟨part.length, (List.prefix_iff_eq_take.1 hprefix).symm⟩, ?_⟩
  rintro ⟨n, rfl⟩
  exact List.take_prefix n (buf.drop 1)

/-! ### The records of a run only grow (R13, R47) and the port is read from its front (R73) -/

/-- If `R` holds once bytes are taken off the front of the port, and every effect of an operation keeps it, it holds
after the step. In contrast to `KeptByInit.step`, `R` may speak of the port. -/
theorem KeptByInit.step_of_consume {R : State → Prop} (h : KeptByInit R) {s s' : State}
    (hport : ∀ rest, rest <:+ s.opPort → R (s.consume rest)) (hn : Machine.step s = .next s') : R s' := by
  rcases step_cases s with ⟨i, rest, hd, hst⟩ | ⟨why, rest, hd, hst⟩ | ⟨-, hst⟩
  · exact h.exec (hport rest (suffix_of_decode_instr hd)) (hst.symm.trans hn)
  · exact perform_holds (op := fun s => .raise .illegalOperation (s.consume rest)) (hst.symm.trans hn)
      (h.report _ _ (hport rest (suffix_of_decode_illegal hd)))
  · rw [hst, idle] at hn
    split at hn
    · cases hn; exact hport s.opPort (List.suffix_refl _)
    · cases hn

/-- `t` may come after `s` in a run: what `s` has recorded stands first in the records of `t`, and what is left on the
port of `t` was last on that of `s`. -/
structure State.GrowsInto (s t : State) : Prop where
  trace : s.trace <+: t.trace
  statuses : s.statuses <+: t.statuses
  port : s.port <+: t.port
  opPort : t.opPort <:+ s.opPort

theorem State.growsInto_consume (s : State) {rest : List Byte} (h : rest <:+ s.opPort) :
    s.GrowsInto (s.consume rest) where
  trace := List.prefix_refl _
  statuses := List.prefix_refl _
  port := List.prefix_refl _
  opPort := h

section
variable {s t : State}

theorem State.GrowsInto.afterTx (h : s.GrowsInto t) (buf : List Byte) (r : TxReply) : s.GrowsInto (t.afterTx buf r) :=
  { h with
    trace := h.trace.trans (List.prefix_append _ _)
    port := h.port.trans (List.prefix_append _ _) }

theorem State.GrowsInto.afterWait (h : s.GrowsInto t) (ms : Nat) : s.GrowsInto (t.afterWait ms) :=
  { h with trace := h.trace.trans (List.prefix_append _ _) }

theorem State.GrowsInto.report (h : s.GrowsInto t) (st : Status) : s.GrowsInto (t.report st) :=
  { h with statuses := h.statuses.trans (List.prefix_append _ _) }

end

/-- Every effect of an operation adds at the end of a record or leaves the records alone. -/
theorem keptByInit_growsInto (s : State) : KeptByInit s.GrowsInto where
  tx t rs v r ht := ht.afterTx (frame8 t.cfg rs v) r
  wait _ ms _ ht := ht.afterWait ms
  report _ st ht := ht.report st
  writeDcf _ _ ht := { ht with }
  tx4 t r ht := ht.afterTx (frame4 t.cfg false t.cfg.cmd4Bit) r
  mark _ _ _ _ ht := { ht with }

/-- Settles O36: the decoder takes bytes off the front of the port, and every effect of an operation only adds to the
records. -/
theorem stepOnlyAppends : Obligations.StepOnlyAppends := by
  intro s s' hn
  obtain ⟨htrace, hstatuses, hport, hopPort⟩ :=
    (keptByInit_growsInto s).step_of_consume (fun _ => s.growsInto_consume) hn
  exact ⟨htrace, hstatuses, hport, hopPort⟩

end Sys2Proof.Machine
end

section
/-!
PROOFS, family 30_encoding.md: the operation encoding (R73 to R77), the wire format (R67 to R69), and R78's identity.

The decoder is settled by three facts: it reads an encoding back (`decode_encode_append`), it refuses illegal bytes
(`decode_of_illegalBytes`), and whatever it answers is so of the bytes (`decode_reads`). Its other properties follow.
-/

namespace Sys2Proof

open Machine (IllegalBytes examined)

/-! ### Encodings are read back (R73, R75, R77) -/

theorem decodeS_encodeState (opcode : Byte) (mk : OnOff → Instr) (s : OnOff) (rest : List Byte) :
    decodeS opcode mk (encodeState s :: rest) = .instr (mk s) rest := by
  cases s <;> rfl

/-- A count of at most 255 fits its byte (R77). -/
theorem decodeV_count_chars (mk : List Byte → Instr) {chars : List Byte} (h : chars.length ≤ 255) (rest : List Byte) :
    decodeV mk (BitVec.ofNat 8 chars.length :: (chars ++ rest)) = .instr (mk chars) rest := by
  have hcount : (BitVec.ofNat 8 chars.length).toNat = chars.length := by
    rw [BitVec.toNat_ofNat]
    omega
  simp [decodeV, hcount]

theorem decode_encode_append {i : Instr} (h : i.wf = true) (rest : List Byte) :
    decode (encode i ++ rest) = .instr i rest := by
  cases i with
  | init => rfl
  | clear => rfl
  | setCursor row col => rfl
  | sendData v => rfl
  | sendCmd v => rfl
  | setDisplay s => exact decodeS_encodeState 0x05#8 .setDisplay s rest
  | setCursorDisplay s => exact decodeS_encodeState 0x06#8 .setCursorDisplay s rest
  | setCursorBlink s => exact decodeS_encodeState 0x07#8 .setCursorBlink s rest
  | writeString chars => exact decodeV_count_chars .writeString (of_decide_eq_true h) rest

theorem decode_encode {i : Instr} (h : i.wf = true) : decode (encode i) = .instr i [] := by
  simpa using decode_encode_append h []

/-- Settles O1: format by format. -/
theorem decodeInvertsEncode : Obligations.DecodeInvertsEncode := fun _ rest h => decode_encode_append h rest

/-! ### Illegal bytes are refused (R76) -/

theorem decodeOpcode_undefined {opcode : Byte} (h : 9 ≤ opcode.toNat) (rest : List Byte) :
    decodeOpcode opcode rest = .illegal (.undefinedOpcode opcode) rest := by
  unfold decodeOpcode
  split
  case h_10 => rfl
  all_goals omega

theorem decodeS_reserved {b : Byte} (h : b &&& 0xFE#8 ≠ 0x00#8) (opcode : Byte) (mk : OnOff → Instr)
    (rest : List Byte) : decodeS opcode mk (b :: rest) = .illegal (.reservedStateBits opcode b) rest := by
  simp [decodeS, h]

theorem decode_of_illegalBytes {bytes : List Byte} (h : IllegalBytes bytes) :
    ∃ why, decode bytes = .illegal why (bytes.drop (examined bytes)) := by
  obtain ⟨opcode, rest, rfl, hop | ⟨hop, b, more, rfl, hb⟩⟩ := h
  · exact ⟨.undefinedOpcode opcode, by simp [decode, decodeOpcode_undefined hop, examined, hop]⟩
  · refine ⟨.reservedStateBits opcode b, ?_⟩
    rcases hop with rfl | rfl | rfl <;> exact decodeS_reserved hb _ _ more

/-- What R76 refuses, it refuses whatever follows. -/
theorem illegalBytes_append {bytes : List Byte} (h : IllegalBytes bytes) (more : List Byte) :
    IllegalBytes (bytes ++ more) := by
  obtain ⟨opcode, rest, rfl, hop | ⟨hop, b, tail, rfl, hb⟩⟩ := h
  · exact ⟨opcode, rest ++ more, rfl, .inl hop⟩
  · exact ⟨opcode, b :: tail ++ more, rfl, .inr ⟨hop, b, tail ++ more, rfl, hb⟩⟩

theorem not_illegalBytes_encode {i : Instr} (h : i.wf = true) : ¬ IllegalBytes (encode i) := by
  intro hbad
  obtain ⟨why, hwhy⟩ := decode_of_illegalBytes hbad
  rw [decode_encode h] at hwhy
  cases hwhy

/-! ### What the decoder answers is so of the bytes -/

/-- The bytes begin the encoding of an operation and do not end it (R77). -/
def BeginsEncoding (bytes : List Byte) : Prop :=
  ∃ i more, i.wf = true ∧ more ≠ [] ∧ bytes ++ more = encode i

/-- What a decoder's answer says of the bytes it was given. -/
def Decoded.Reads (bytes : List Byte) : Decoded → Prop
  | .instr i rest => i.wf = true ∧ bytes = encode i ++ rest
  | .illegal _ _ => IllegalBytes bytes
  | .incomplete => BeginsEncoding bytes

section
variable {opcode : Byte}

theorem decodeB_reads {mk : Byte → Instr} (h : ∀ v, (mk v).wf = true ∧ encode (mk v) = [opcode, v])
    (rest : List Byte) : (decodeB mk rest).Reads (opcode :: rest) := by
  cases rest with
  | nil => exact ⟨mk 0x00#8, [0x00#8], (h _).1, by simp, (h _).2.symm⟩
  | cons v rest => exact ⟨(h v).1, by rw [(h v).2]; rfl⟩

theorem decodeRC_reads {mk : Byte → Byte → Instr}
    (h : ∀ row col, (mk row col).wf = true ∧ encode (mk row col) = [opcode, row, col]) (rest : List Byte) :
    (decodeRC mk rest).Reads (opcode :: rest) := by
  match rest with
  | [] => exact ⟨mk 0x00#8 0x00#8, [0x00#8, 0x00#8], (h _ _).1, by simp, (h _ _).2.symm⟩
  | [row] => exact ⟨mk row 0x00#8, [0x00#8], (h _ _).1, by simp, (h _ _).2.symm⟩
  | row :: col :: rest => exact ⟨(h row col).1, by rw [(h row col).2]; rfl⟩

/-- A state byte without reserved bits is the one its state is encoded as (R75). -/
theorem encodeState_of_bit : ∀ b : Byte, b &&& 0xFE#8 = 0x00#8 →
    encodeState (if b &&& 0x01#8 = 0x00#8 then .off else .on) = b := by decide

theorem decodeS_reads {mk : OnOff → Instr} (hop : opcode = 0x05#8 ∨ opcode = 0x06#8 ∨ opcode = 0x07#8)
    (h : ∀ s, (mk s).wf = true ∧ encode (mk s) = [opcode, encodeState s]) (rest : List Byte) :
    (decodeS opcode mk rest).Reads (opcode :: rest) := by
  cases rest with
  | nil => exact ⟨mk .off, [encodeState .off], (h _).1, by simp, (h _).2.symm⟩
  | cons b rest =>
    by_cases hb : b &&& 0xFE#8 = 0x00#8
    · rw [decodeS, if_pos hb]
      exact ⟨(h _).1, by rw [(h _).2, encodeState_of_bit b hb]; rfl⟩
    · rw [decodeS_reserved hb]
      exact ⟨opcode, b :: rest, rfl, .inr ⟨hop, b, rest, rfl, hb⟩⟩

theorem decodeV_reads (rest : List Byte) : (decodeV .writeString rest).Reads (0x08#8 :: rest) := by
  cases rest with
  | nil => exact ⟨.writeString [], [0x00#8], rfl, by simp, rfl⟩
  | cons len rest =>
    have hlen : len.toNat ≤ 255 := by have := len.isLt; omega
    by_cases hshort : rest.length < len.toNat
    · rw [decodeV, if_pos hshort]
      have htotal : rest.length + (len.toNat - rest.length) = len.toNat := by omega
      exact ⟨.writeString (rest ++ List.replicate (len.toNat - rest.length) 0x00#8),
        List.replicate (len.toNat - rest.length) 0x00#8, by simpa [Instr.wf, htotal] using hlen,
        by simp; omega, by simp [encode, htotal]⟩
    · rw [decodeV, if_neg hshort]
      have htake : (rest.take len.toNat).length = len.toNat := List.length_take_of_le (by omega)
      exact ⟨by simpa only [Instr.wf, htake, decide_eq_true_eq] using hlen, by simp only [encode, htake]; simp⟩

end

/-- The opcode bytes of R74, and the others. -/
theorem opcode_cases : ∀ opcode : Byte,
    opcode = 0x00#8 ∨ opcode = 0x01#8 ∨ opcode = 0x02#8 ∨ opcode = 0x03#8 ∨ opcode = 0x04#8 ∨ opcode = 0x05#8 ∨
      opcode = 0x06#8 ∨ opcode = 0x07#8 ∨ opcode = 0x08#8 ∨ 9 ≤ opcode.toNat := by decide

theorem decodeOpcode_reads (opcode : Byte) (rest : List Byte) : (decodeOpcode opcode rest).Reads (opcode :: rest) := by
  rcases opcode_cases opcode with rfl | rfl | rfl | rfl | rfl | rfl | rfl | rfl | rfl | hop
  · exact ⟨rfl, rfl⟩
  · exact ⟨rfl, rfl⟩
  · exact decodeRC_reads (fun _ _ => ⟨rfl, rfl⟩) rest
  · exact decodeB_reads (fun _ => ⟨rfl, rfl⟩) rest
  · exact decodeB_reads (fun _ => ⟨rfl, rfl⟩) rest
  · exact decodeS_reads (.inl rfl) (fun _ => ⟨rfl, rfl⟩) rest
  · exact decodeS_reads (.inr (.inl rfl)) (fun _ => ⟨rfl, rfl⟩) rest
  · exact decodeS_reads (.inr (.inr rfl)) (fun _ => ⟨rfl, rfl⟩) rest
  · exact decodeV_reads rest
  · rw [decodeOpcode_undefined hop]
    exact ⟨opcode, rest, rfl, .inl hop⟩

theorem decode_reads (bytes : List Byte) : (decode bytes).Reads bytes := by
  cases bytes with
  | nil => exact ⟨.init, [0x00#8], rfl, by simp, rfl⟩
  | cons opcode rest => exact decodeOpcode_reads opcode rest

/-- Settles O2: what `decode_reads` says of an operation read. -/
theorem decodeReadsOnlyEncodings : Obligations.DecodeReadsOnlyEncodings := by
  intro bytes i rest h
  simpa [h, Decoded.Reads] using decode_reads bytes

theorem illegalBytes_of_decode {bytes rest : List Byte} {why : Illegal} (h : decode bytes = .illegal why rest) :
    IllegalBytes bytes := by
  simpa [h, Decoded.Reads] using decode_reads bytes

/-- Settles O4: only illegal bytes are refused, and those always with the bytes R76 examines taken. -/
theorem decodeRefusesExactlyIllegal : Obligations.DecodeRefusesExactlyIllegal := by
  refine fun bytes => ⟨fun why rest h => ?_, decode_of_illegalBytes⟩
  have hbad := illegalBytes_of_decode h
  obtain ⟨why', h'⟩ := decode_of_illegalBytes hbad
  cases h.symm.trans h'
  exact ⟨hbad, rfl⟩

/-- Bytes that begin an encoding hold no whole operation, which would be the encoded one with nothing after it, and they
are not illegal, as no encoding is. -/
theorem decode_of_beginsEncoding {bytes : List Byte} (h : BeginsEncoding bytes) : decode bytes = .incomplete := by
  obtain ⟨i, more, hwf, hmore, hi⟩ := h
  cases hd : decode bytes with
  | instr j rest =>
    obtain ⟨hj, rfl⟩ := decodeReadsOnlyEncodings bytes j rest hd
    have hsame : Decoded.instr i [] = .instr j (rest ++ more) := by
      rw [← decode_encode hwf, ← hi, List.append_assoc, decode_encode_append hj]
    injection hsame with _ hnil
    exact absurd (List.append_eq_nil_iff.1 hnil.symm).2 hmore
  | illegal why rest =>
    exact absurd (hi ▸ illegalBytes_append (illegalBytes_of_decode hd) more) (not_illegalBytes_encode hwf)
  | incomplete => rfl

/-- Settles O3: forward what `decode_reads` says, backward `decode_of_beginsEncoding`. -/
theorem decodeWaitsForTheRest : Obligations.DecodeWaitsForTheRest := by
  refine fun bytes => ⟨fun h => ?_, decode_of_beginsEncoding⟩
  have hreads := decode_reads bytes
  rwa [h] at hreads

/-- Settles O5: evaluation of the decoder on each word. -/
theorem decodeSpecWords : Obligations.DecodeSpecWords := by
  unfold Obligations.DecodeSpecWords
  decide

end Sys2Proof

namespace Sys2Proof.Machine

/-! ### Reading a frame back (R69) -/

section
variable {c : Config}

theorem frameValueRaised_frame8 (h : c.wf = true) (rs : Bool) (v : Byte) :
    frameValueRaised (frame8 c rs v) = some v := by
  simp only [frame8, frameValueRaised]
  rw [ushiftRight_four, pack_nibble h (highNibble_clear v), pack_nibble h (lowNibble_clear v), nibbles_join]

theorem frameRsRaised_frame8 (h : c.wf = true) (rs : Bool) (v : Byte) :
    frameRsRaised c (frame8 c rs v) = some rs := by
  simp only [frame8, frameRsRaised, pack_rs_ne h (highNibble_clear v)]

theorem frame8_injective (h : c.wf = true) (rs : Bool) : Function.Injective (frame8 c rs) := by
  intro w v hframe
  simpa [frameValue_frame8 h] using congrArg frameValue hframe

/-- Settles O11: the enable line is no part of what is read back, so both byte pairs read alike. -/
theorem frameRoundTrip : Obligations.FrameRoundTrip := fun _ rs v h =>
  ⟨frameValue_frame8 h rs v, frameRs_frame8 h rs v, frameValueRaised_frame8 h rs v, frameRsRaised_frame8 h rs v,
    fun _ hframe => frame8_injective h rs hframe⟩

/-! ### What the controller latches (R68) -/

theorem extractLsb'_four (x : Byte) : x.extractLsb' 4 4 = (x &&& 0xF0#8).extractLsb' 4 4 := by
  revert x; decide

theorem highNibble_extract (v : Byte) : (highNibble v).extractLsb' 4 4 = v.extractLsb' 4 4 := by
  revert v; decide

theorem lowNibble_extract (v : Byte) : (lowNibble v).extractLsb' 4 4 = v.extractLsb' 0 4 := by
  revert v; decide

/-- The enable line is high exactly when `en` says so. -/
theorem pack_en_ne (h : c.wf = true) {n : Byte} (hn : n &&& 0x0F#8 = 0x00#8) (rs bl en : Bool) :
    (pack c n rs bl en &&& c.enMask != 0x00#8) = en := by
  have he : c.enMask ≠ 0x00#8 := oneBit_ne_zero (Config.controlLines h).bit_b
  rw [pack_en h hn]
  cases en
  · rfl
  · simpa using he

@[simp] theorem latched_nil : latched c [] = [] := rfl
@[simp] theorem latched_singleton (b : Byte) : latched c [b] = [] := rfl

/-- At a falling edge the controller latches the nibble and the register select packed before it; elsewhere nothing. -/
theorem latched_pack (h : c.wf = true) {n n' : Byte} (hn : n &&& 0x0F#8 = 0x00#8) (hn' : n' &&& 0x0F#8 = 0x00#8)
    (rs en en' : Bool) (rest : List Byte) :
    latched c (pack c n rs true en :: pack c n' rs true en' :: rest) =
      if en && !en' then (rs, n.extractLsb' 4 4) :: latched c (pack c n' rs true en' :: rest)
      else latched c (pack c n' rs true en' :: rest) := by
  have hlow : (pack c n' rs true en' &&& c.enMask == 0x00#8) = !en' :=
    Bool.not_eq_eq_eq_not.mp (pack_en_ne h hn' rs true en')
  rw [latched, pack_en_ne h hn, hlow, pack_rs_ne h hn, extractLsb'_four, pack_nibble h hn]

/-- Settles O12: pulse by pulse, a cut inside a pulse leaving it without its falling edge. -/
theorem frameLatchesNibbles : Obligations.FrameLatchesNibbles := by
  intro c rs v h
  have hhigh := highNibble_clear v
  have hlow := lowNibble_clear v
  refine ⟨?_, fun n => ?_⟩
  · simp [payload, frame4, latched_pack h hhigh hhigh, highNibble_extract]
  · match n with
    | 0 => rfl
    | 1 => rfl
    | 2 => simp [payload, frame8, latched_pack h hhigh hhigh, highNibble_extract]
    | 3 => simp [payload, frame8, latched_pack h hhigh hhigh, latched_pack h hhigh hlow, highNibble_extract]
    | n + 4 =>
      have hpulses : 2 ≤ (n + 4) / 2 := by omega
      rw [List.take_of_length_le (by simp [payload, frame8]), List.take_of_length_le (by simpa using hpulses)]
      simp [payload, frame8, latched_pack h hhigh hhigh, latched_pack h hhigh hlow, latched_pack h hlow hlow,
        highNibble_extract, lowNibble_extract]

end

/-! ### WRITESTRING is SENDDATA of each character (R78) -/

/-- The events of a string, each character a full frame with `rs = true` (R152). -/
def dataEvents (c : Config) (chars : List Byte) : List Event := chars.map fun ch => .tx (frame8 c true ch)

@[simp] theorem dataEvents_nil (c : Config) : dataEvents c [] = [] := rfl
@[simp] theorem dataEvents_cons (c : Config) (ch : Byte) (rest : List Byte) :
    dataEvents c (ch :: rest) = .tx (frame8 c true ch) :: dataEvents c rest := rfl

/-- `s` after a string whose every `Tx` answered `ok`, but for the status. -/
def State.afterString (s : State) (chars : List Byte) : State :=
  s.ran (dataEvents s.cfg chars) (payloads (dataEvents s.cfg chars))

@[simp] theorem State.afterString_nil (s : State) : s.afterString [] = s := s.ran_nil
@[simp] theorem State.afterString_statuses (s : State) (chars : List Byte) :
    (s.afterString chars).statuses = s.statuses := rfl

/-- A string is its first character and then the others. -/
theorem State.afterString_afterTx (s : State) (ch : Byte) (rest : List Byte) :
    (s.afterTx (frame8 s.cfg true ch) .ok).afterString rest = s.afterString (ch :: rest) := by
  rw [State.afterTx_eq_ran, afterString, State.ran_ran]
  rfl

theorem State.AnswersOk.afterTx {s : State} {n : Nat} (h : s.AnswersOk (n + 1)) (buf : List Byte) (r : TxReply) :
    (s.afterTx buf r).AnswersOk n := fun k hk => by
  rw [State.replyAt_afterTx]
  exact h (k + 1) (by omega)

theorem sendChars_allOk (failed : Bool) {chars : List Byte} {s : State} (h : s.AnswersOk chars.length) :
    sendChars failed chars s = endString failed (s.afterString chars) := by
  induction chars generalizing s with
  | nil => rw [State.afterString_nil]; rfl
  | cons ch rest ih => rw [sendChars_ok (h 0 (by simp)), ih (h.afterTx _ _), State.afterString_afterTx]

theorem exec_writeString_allOk {s : State} (hw : s.cfg.wf = true) {chars : List Byte} (h : s.AnswersOk chars.length) :
    exec (.writeString chars) s = .next ((s.afterString chars).report .ok) := by
  rw [exec_eq_perform_pseudocode, perform_wf hw, pseudocode, sendChars_allOk false h]
  rfl

theorem exec_sendData_ok {s : State} (hw : s.cfg.wf = true) (h : s.replyAt 0 = some .ok) (v : Byte) :
    exec (.sendData v) s = .next ((s.afterTx (frame8 s.cfg true v) .ok).report .ok) := by
  rw [exec_eq_perform_pseudocode, perform_wf hw, pseudocode, send8, txOrRaise_ok h]
  rfl

/-- SENDDATA of each character in turn leaves what the string leaves, with one status for each. -/
theorem execAll_sendData_allOk {chars : List Byte} {s : State} (h : s.AnswersOk chars.length)
    (hw : s.cfg.wf = true) :
    execAll (chars.map .sendData) s =
      .next { s.afterString chars with statuses := s.statuses ++ List.replicate chars.length .ok } := by
  induction chars generalizing s with
  | nil => simp [execAll]
  | cons ch rest ih =>
    have hrest : ((s.afterTx (frame8 s.cfg true ch) .ok).report .ok).AnswersOk rest.length :=
      h.afterTx (frame8 s.cfg true ch) .ok
    simp only [List.map_cons, execAll, exec_sendData_ok hw (h 0 (by simp))]
    rw [ih hrest hw, ← s.afterString_afterTx]
    simp [State.afterString, State.ran, List.replicate_succ]

/-- Settles O31: both leave `afterString`, with one status or one for each character. -/
theorem writeStringIsSendDataOfEach : Obligations.WriteStringIsSendDataOfEach := fun _ _ hw h =>
  ⟨_, _, exec_writeString_allOk hw h, execAll_sendData_allOk h hw, rfl, rfl, rfl, rfl⟩

/-! ### The frames sent (R67) -/

/-- `t` comes after `s` with the configuration of `s`, and every frame sent in between satisfies `P`. -/
def State.SentOnly (s : State) (P : List Byte → Prop) (t : State) : Prop :=
  t.cfg = s.cfg ∧ ∃ events, t.trace = s.trace ++ events ∧ ∀ buf, .tx buf ∈ events → P buf

section
variable {s t : State} {P : List Byte → Prop}

theorem State.sentOnly_self (s : State) (P : List Byte → Prop) : s.SentOnly P s :=
  ⟨rfl, [], by simp, by simp⟩

theorem State.SentOnly.afterTx (h : s.SentOnly P t) {buf : List Byte} (hbuf : P buf) (r : TxReply) :
    s.SentOnly P (t.afterTx buf r) := by
  obtain ⟨hcfg, events, htrace, hevents⟩ := h
  refine ⟨hcfg, events ++ [.tx buf], by simp [htrace], fun buf' hmem => ?_⟩
  rcases List.mem_append.1 hmem with hold | hnew
  · exact hevents buf' hold
  · cases List.mem_singleton.1 hnew
    exact hbuf

theorem State.SentOnly.afterWait (h : s.SentOnly P t) (ms : Nat) : s.SentOnly P (t.afterWait ms) := by
  obtain ⟨hcfg, events, htrace, hevents⟩ := h
  exact ⟨hcfg, events ++ [.wait ms], by simp [htrace], fun buf hmem => hevents buf (by simpa using hmem)⟩

/-- Every operation but INIT sends full frames only. -/
theorem keptByToggles_sentOnly (h8 : ∀ rs v, P (frame8 s.cfg rs v)) : KeptByToggles (s.SentOnly P) where
  tx _ rs v r ht := ht.afterTx (ht.1 ▸ h8 rs v) r
  wait _ ms _ ht := ht.afterWait ms
  report _ _ ht := ht
  writeDcf _ _ ht := ht

/-- INIT sends full frames and its 4-bit switch. -/
theorem keptByInit_sentOnly (h8 : ∀ rs v, P (frame8 s.cfg rs v)) (h4 : P (frame4 s.cfg false s.cfg.cmd4Bit)) :
    KeptByInit (s.SentOnly P) where
  toKeptByToggles := keptByToggles_sentOnly h8
  tx4 _ r ht := ht.afterTx (ht.1 ▸ h4) r
  mark _ _ _ _ ht := ht

end

/-- The frames an operation may send (R67). -/
def FrameOf (c : Config) (i : Instr) (buf : List Byte) : Prop :=
  (∃ rs v, buf = frame8 c rs v ∧ buf.length = 5) ∨
    (i = .init ∧ buf = frame4 c false c.cmd4Bit ∧ buf.length = 3)

theorem exec_sentOnly {s s' : State} {i : Instr} (hn : exec i s = .next s') : s.SentOnly (FrameOf s.cfg i) s' := by
  have h8 : ∀ rs v, FrameOf s.cfg i (frame8 s.cfg rs v) := fun rs v => .inl ⟨rs, v, rfl, rfl⟩
  by_cases hi : i = .init
  · exact (keptByInit_sentOnly h8 (.inr ⟨hi, rfl, rfl⟩)).exec (s.sentOnly_self _) hn
  · exact (keptByToggles_sentOnly h8).exec hi (s.sentOnly_self _) hn

/-- Settles O39: every effect of an operation sends a full frame, or is INIT's nibble frame. -/
theorem frameLengths : Obligations.FrameLengths := fun _ _ _ hn => (exec_sentOnly hn).2

end Sys2Proof.Machine
end

section
/-!
PROOFS, family 40_packer_encoder.md: the packed bytes of a full frame (R95), a step that runs an operation (R90), the
results of SENDDATA and SENDCMD (R92, R93), and what the operations that write no state leave unchanged.
-/

namespace Sys2Proof.Machine

/-! ### The packed bytes of a full frame (R95) -/

/-- Beside nibble and enable line, a packed byte shows backlight high, the caller's RS and no unassigned bit. -/
theorem pack_lines {c : Config} (h : c.wf = true) {n : Byte} (hn : n &&& 0x0F#8 = 0x00#8) (rs en : Bool) :
    pack c n rs true en &&& c.blMask = c.blMask ∧ (pack c n rs true en &&& c.rsMask ≠ 0x00#8 ↔ rs = true) ∧
      pack c n rs true en &&& unassignedBit c = 0x00#8 := by
  refine ⟨pack_bl h hn rs true en, ?_, pack_unassigned hn rs true en⟩
  rw [← bne_iff_ne, pack_rs_ne h hn]

/-- Settles O10: field by field what `pack` puts there, for each nibble with the enable line high and low. -/
theorem frameCarriesValue : Obligations.FrameCarriesValue := by
  intro c rs b h
  have hhigh := highNibble_clear b
  have hlow := lowNibble_clear b
  refine ⟨_, _, _, _, rfl, pack_nibble h hhigh rs true true, pack_nibble h hhigh rs true false,
    pack_nibble h hlow rs true true, pack_nibble h hlow rs true false, ?_, pack_en h hhigh rs true true,
    pack_en h hlow rs true true, pack_en h hhigh rs true false, pack_en h hlow rs true false⟩
  simp only [List.forall_mem_cons]
  exact ⟨pack_lines h hhigh rs true, pack_lines h hhigh rs false, pack_lines h hlow rs true,
    pack_lines h hlow rs false, by simp⟩

/-! ### What the operations that write no state leave unchanged (R92, R93, R140, R150, R152) -/

theorem State.growsInto_self (s : State) : s.GrowsInto s := s.growsInto_consume (List.suffix_refl _)

/-- Every operation only adds to the records (R13, R47). -/
theorem exec_growsInto {i : Instr} {s s' : State} (hn : exec i s = .next s') : s.GrowsInto s' :=
  (keptByInit_growsInto s).exec s.growsInto_self hn

/-- `t` has the configuration, the registers and the operation port of `s`. -/
structure State.SameRegisters (s t : State) : Prop where
  dcf : t.dcf = s.dcf
  initStep : t.initStep = s.initStep
  cfg : t.cfg = s.cfg
  opPort : t.opPort = s.opPort

/-- Frames, delays and statuses write none of them. -/
theorem keptBySends_sameRegisters (s : State) : KeptBySends s.SameRegisters where
  tx _ _ _ _ ht := { ht with }
  wait _ _ _ ht := { ht with }
  report _ _ ht := { ht with }

/-- Settles O32: sends keep the registers, and every operation only adds to the records. -/
theorem plainOperationFrame : Obligations.PlainOperationFrame := by
  intro s s' i hplain hinit hn
  obtain ⟨hdcf, hinitStep, hcfg, hopPort⟩ :=
    (keptBySends_sameRegisters s).exec hplain hinit ⟨rfl, rfl, rfl, rfl⟩ hn
  obtain ⟨htrace, hstatuses, hport, -⟩ := exec_growsInto hn
  exact ⟨hdcf, hinitStep, hcfg, hopPort, htrace, hstatuses, hport⟩

/-! ### One step (R90) -/

/-- Settles O6: of the cases of a step, the one the decoder's answer leaves. -/
theorem stepRunsDecoded : Obligations.StepRunsDecoded := by
  intro s i rest h
  rcases step_cases s with ⟨j, rest', hd, hst⟩ | ⟨why, rest', hd, -⟩ | ⟨hd, -⟩ <;> cases h.symm.trans hd
  exact hst

/-! ### SENDDATA and SENDCMD (R92, R93) -/

/-- One full frame as a whole operation: its event whatever the answer, and the status the answer stands for. -/
theorem perform_send8 {s : State} (hw : s.cfg.wf = true) {r : TxReply} (h : s.replyAt 0 = some r) (rs : Bool)
    (v : Byte) :
    perform (send8 rs v) s =
      .next (s.after [.tx (frame8 s.cfg rs v)] (delivered (frame8 s.cfg rs v) r) (statusOf r)) := by
  rw [perform_wf hw]
  cases r with
  | ok => rw [send8_ok h]; rfl
  | fail n => rw [send8_fail h]; rfl

/-- Settles O14: SENDDATA performs a full frame with RS = 1. -/
theorem sendDataResult : Obligations.SendDataResult := fun _ v _ hw h => perform_send8 hw h true v

/-- Settles O15: SENDCMD performs one with RS = 0. -/
theorem sendCmdResult : Obligations.SendCmdResult := fun _ v _ hw h => perform_send8 hw h false v

end Sys2Proof.Machine
end

section
/-!
PROOFS, family 41_init_sequencer.md: INIT (R110). One judgement, `Flow.Performs`, says of a piece of pseudocode what it
emits and leaves in the registers when every `Tx` answers `ok`, and what when one fails (R119). It is proved once for each
step and composed along the sequence.
-/

namespace Sys2Proof.Machine

/-! ### The registers of a state (R21) -/

/-- DCF and `init_step`. -/
abbrev Regs := Option Byte × Nat

def State.regs (s : State) : Regs := (s.dcf, s.initStep)

/-- `s` with other registers. -/
def State.withRegs (s : State) (r : Regs) : State := { s with dcf := r.1, initStep := r.2 }

section
variable (s : State) (r r' : Regs)

@[simp] theorem State.regs_withRegs : (s.withRegs r).regs = r := rfl
@[simp] theorem State.withRegs_withRegs : (s.withRegs r).withRegs r' = s.withRegs r' := rfl
@[simp] theorem State.replyAt_withRegs (k : Nat) : (s.withRegs r).replyAt k = s.replyAt k := rfl
@[simp] theorem State.withRegs_ran (events : List Event) (reached : List Byte) :
    (s.withRegs r).ran events reached = (s.ran events reached).withRegs r := rfl
@[simp] theorem State.withRegs_report (st : Status) : (s.withRegs r).report st = (s.report st).withRegs r := rfl

end

/-! ### Events cut off at a `Tx` that fails (R119) -/

/-- A cut inside the first part leaves nothing of the second. -/
theorem throughTx_append_left {k : Nat} {a : List Event} (h : k < (txEvents a).length) (b : List Event) :
    throughTx k (a ++ b) = throughTx k a := by
  induction a generalizing k with
  | nil => simp at h
  | cons e rest ih =>
    cases e with
    | wait ms => simpa [throughTx] using ih (by simpa using h)
    | tx buf =>
      cases k with
      | zero => rfl
      | succ k => simpa using ih (by simpa using h)

/-- A cut inside the second part leaves all of the first. -/
theorem throughTx_append_right (k : Nat) (a b : List Event) :
    throughTx ((txEvents a).length + k) (a ++ b) = a ++ throughTx k b := by
  induction a with
  | nil => simp
  | cons e rest ih =>
    cases e with
    | wait ms => simpa [throughTx] using ih
    | tx buf => simpa [Nat.add_right_comm] using ih

theorem ne_nil_of_lt_txEvents {k : Nat} {events : List Event} (h : k < (txEvents events).length) : events ≠ [] := by
  rintro rfl
  simp at h

/-! ### What a piece of INIT performs -/

/-- `f`, started in `s`, emits `events` if its calls return and every `Tx` answers `ok`, and goes on with the registers
`final`. If its `k`-th `Tx` fails it raises `TransportFailure` right after that event, with the registers `cuts[k]`. -/
structure Flow.Performs (s : State) (events : List Event) (cuts : List Regs) (final : Regs) (f : Flow) : Prop where
  txs : (txEvents events).length = cuts.length
  goes : s.AnswersOk cuts.length → s.WaitsReturn (waitEvents events).length →
    f = .go ((s.ran events (payloads events)).withRegs final)
  stops : ∀ k n r, cuts[k]? = some r → s.AnswersOk k → s.replyAt k = some (.fail n) →
    s.WaitsReturn (waitEvents (throughTx k events)).length →
    f = .raise .transportFailure ((s.ran (throughTx k events) (reachedBytes (throughTx k events) n)).withRegs r)

section
variable {s : State} {events events' : List Event} {cuts cuts' : List Regs} {r final : Regs} {f : Flow}

/-- The registers a piece starts with are seen only in those it ends with. -/
theorem Flow.Performs.of_withRegs (h : f.Performs (s.withRegs r) events cuts final) : f.Performs s events cuts final where
  txs := h.txs
  goes := h.goes
  stops := h.stops

/-- One piece after another: the events of both, and the second's registers last. -/
theorem Flow.Performs.andThen {g : State → Flow} (hf : f.Performs s events cuts r)
    (hg : ∀ t, t.cfg = s.cfg → t.regs = r → (g t).Performs t events' cuts' final) :
    (f.andThen g).Performs s (events ++ events') (cuts ++ cuts') final := by
  have hnext := hg ((s.ran events (payloads events)).withRegs r) rfl rfl
  refine ⟨by simp [hf.txs, hnext.txs], fun ha hw => ?_, fun k n r' hk ha hfail hw => ?_⟩
  · simp only [List.length_append, waitEvents_append] at ha hw
    rw [hf.goes (fun k hk => ha k (by omega)) (hw.mono (by omega)), Flow.andThen_go,
      hnext.goes (ha.ran (by rw [hf.txs]) (payloads events)) (hw.ran le_rfl (payloads events))]
    simp [State.ran_ran]
  · by_cases hlt : k < cuts.length
    · rw [List.getElem?_append_left hlt] at hk
      rw [throughTx_append_left (hf.txs ▸ hlt)] at hw ⊢
      rw [hf.stops k n r' hk ha hfail hw, Flow.andThen_raise]
    · obtain ⟨j, rfl⟩ := Nat.exists_eq_add_of_le (Nat.le_of_not_lt hlt)
      have hj : cuts'[j]? = some r' := by simpa [List.getElem?_append_right] using hk
      have hne : throughTx j events' ≠ [] := throughTx_ne_nil <| ne_nil_of_lt_txEvents <|
        hnext.txs ▸ (List.getElem?_eq_some_iff.1 hj).1
      rw [← hf.txs] at ha hfail
      rw [← hf.txs, throughTx_append_right] at hw ⊢
      simp only [waitEvents_append, List.length_append] at hw
      rw [hf.goes (fun k hk => ha k (by rw [hf.txs]; omega)) (hw.mono (by omega)), Flow.andThen_go,
        hnext.stops j n r' hj (ha.ran le_rfl (payloads events)) (by simpa using hfail) (hw.ran le_rfl (payloads events)),
        reachedBytes_append hne]
      simp [State.ran_ran]

end

/-! ### The steps of INIT (R111 to R118) -/

/-- The frames of a step and its mark: the registers the step began with stand until the mark is set. -/
theorem sendMark_performs {s : State} {d : Option Byte} {j : Nat} (hs : s.regs = (d, j))
    (frames : List (List Byte × Nat)) (k : Nat) :
    (sendMark frames k s).Performs s (eventsOf frames) (List.replicate frames.length (d, j)) (d, k) := by
  obtain ⟨rfl, rfl⟩ := Prod.mk.inj hs
  refine ⟨by simp, fun ha hw => ?_, fun i n r hi ha hfail hw => ?_⟩
  · rw [sendMark, sendAll_ok (by simpa using ha) hw]
    rfl
  · rw [List.getElem?_replicate, Option.ite_none_right_eq_some] at hi
    obtain ⟨hlt, hr⟩ := hi
    cases hr
    rw [sendMark, sendAll_fail hlt ha hfail hw]
    rfl

/-- The power-on settle has no `Tx` (R111). -/
theorem initStep1_performs (s : State) : (initStep1 s).Performs s (settle s.cfg.tPowerOn) [] (s.dcf, 1) := by
  refine ⟨by simp, fun _ hw => ?_, fun _ _ _ hk => by simp at hk⟩
  rw [initStep1_eq, waitMs_ran (by simpa using hw), payloads_settle]
  rfl

theorem writeDcf_regs (s : State) (v : Byte) : (s.writeDcf v).regs = (some (v &&& dcfMask s.cfg), s.initStep) := rfl

theorem initStep5_performs {s : State} {d : Option Byte} (hs : s.regs = (d, 4)) :
    (initStep5 s).Performs s (eventsOf [(frame8 s.cfg false s.cfg.cmdDisplayControl, s.cfg.tInitDoff)])
      [(some 0x00#8, 4)] (some 0x00#8, 5) := by
  obtain ⟨-, hk⟩ := Prod.mk.inj hs
  rw [initStep5_eq]
  refine .of_withRegs (r := (s.writeDcf 0x00#8).regs) (sendMark_performs ?_ _ 5)
  simp [writeDcf_regs, hk]

theorem initStep8_performs {s : State} (hs : s.regs = (some 0x00#8, 7)) :
    (initStep8 s).Performs s
      (eventsOf [(frame8 s.cfg false (s.cfg.cmdDisplayControl ||| s.cfg.dMask), s.cfg.tInitDon)])
      [(some s.cfg.dMask, 7)] (some s.cfg.dMask, 8) := by
  obtain ⟨hd, hk⟩ := Prod.mk.inj hs
  rw [initStep8_eq (by simp [State.readDcf, hd])]
  refine .of_withRegs (r := (s.writeDcf s.cfg.dMask).regs) (sendMark_performs ?_ _ 8)
  simp [writeDcf_regs, dMask_and_dcfMask, hk]

/-- The registers of an INIT started in `s` at each of its nine `Tx` calls (R119). -/
def initCuts (s : State) : List Regs :=
  [(s.dcf, 1), (s.dcf, 1), (s.dcf, 1), (s.dcf, 2), (s.dcf, 3), (some 0x00#8, 4), (some 0x00#8, 5), (some 0x00#8, 6),
    (some s.cfg.dMask, 7)]

theorem getElem?_initCuts (s : State) {k : Nat} (hk : k < 9) :
    (initCuts s)[k]? = some
      (if k < 5 then s.dcf else if k < 8 then some 0x00#8 else some s.cfg.dMask, if k < 3 then 1 else k - 1) := by
  interval_cases k <;> rfl

/-- INIT as one piece: step 5 and step 8 write DCF, the others send with the registers they find. -/
theorem initSequence_performs (s : State) :
    (initSequence s).Performs s (initEvents s.cfg) (initCuts s) (some s.cfg.dMask, 8) := by
  have h1 : (initStep1 (s.setInitStep 0)).Performs s (settle s.cfg.tPowerOn) [] (s.dcf, 1) :=
    .of_withRegs (r := (s.dcf, 0)) (initStep1_performs (s.setInitStep 0))
  have h4 := ((h1.andThen fun t ht hr => ht ▸ initStep2_eq t ▸ sendMark_performs hr (startFrames t.cfg) 2).andThen
    fun t ht hr => ht ▸ initStep3_eq t ▸ sendMark_performs hr _ 3).andThen
    fun t ht hr => ht ▸ initStep4_eq t ▸ sendMark_performs hr _ 4
  have h8 := (((h4.andThen fun t ht hr => ht ▸ initStep5_performs hr).andThen
    fun t ht hr => ht ▸ initStep6_eq t ▸ sendMark_performs hr _ 6).andThen
    fun t ht hr => ht ▸ initStep7_eq t ▸ sendMark_performs hr _ 7).andThen
    fun t ht hr => ht ▸ initStep8_performs hr
  simpa [initSequence, initEvents, initCuts, startFrames, command] using h8

/-! ### INIT as an operation (R110, R119, R121) -/

theorem exec_init {s : State} (h : s.cfg.wf = true) : exec .init s = (initSequence s).finish := perform_wf h

/-- Settles O23: what `initSequence_performs` says when every `Tx` answers `ok`. -/
theorem initCompletes : Obligations.InitCompletes := by
  intro s hwf ha hw
  rw [exec_init hwf, (initSequence_performs s).goes ha hw, Flow.finish_go, State.withRegs_report, State.ran_report]
  rfl

/-- Settles O24: what `initSequence_performs` says of a failed `Tx`, with the registers `getElem?_initCuts` reads off. -/
theorem initAborts : Obligations.InitAborts := by
  rintro s k n _ hwf hk rfl ha hfail hw
  rw [exec_init hwf, (initSequence_performs s).stops k n _ (getElem?_initCuts s hk) ha hfail hw, Flow.finish_raise,
    State.withRegs_report, State.ran_report]
  rfl

theorem settle_length_le (ms : Nat) : (settle ms).length ≤ 1 := by
  unfold settle
  split <;> simp

theorem waitEvents_initEvents (c : Config) :
    waitEvents (initEvents c) = ((waitPlan c .init).map (·.2)).flatMap settle := by
  simp [initEvents, waitPlan, command]

theorem waitEvents_initEvents_length_le (c : Config) : (waitEvents (initEvents c)).length ≤ 10 := by
  rw [waitEvents_initEvents, List.length_flatMap]
  exact List.sum_le_card_nsmul _ 1 (by simp [waitPlan, settle_length_le])

/-- Settles O26: the trace of a completed INIT is `initEvents`, here evaluated at the defaults and counted in general. -/
theorem initTraceAtDefaults : Obligations.InitTraceAtDefaults := by
  refine ⟨fun s hcfg ha hw => ?_, fun s hwf ha hw => ?_⟩
  · have hwait : (waitEvents (initEvents s.cfg)).length ≤ 7 := by rw [hcfg]; decide
    refine ⟨_, initCompletes s (hcfg ▸ by decide) ha (hw.mono hwait), congrArg (s.trace ++ ·) ?_⟩
    rw [hcfg]
    decide
  · exact ⟨_, _, initCompletes s hwf ha (hw.mono (waitEvents_initEvents_length_le s.cfg)), rfl,
      (initSequence_performs s).txs, waitEvents_initEvents s.cfg⟩

/-! ### What INIT leaves unchanged (R110) -/

/-- No effect of an operation puts bytes on the operation port or takes them off it. -/
theorem keptByInit_opPort (port : List Byte) : KeptByInit fun s => s.opPort = port where
  tx _ _ _ _ hs := hs
  wait _ _ _ hs := hs
  report _ _ hs := hs
  writeDcf _ _ hs := hs
  tx4 _ _ hs := hs
  mark _ _ _ _ hs := hs

/-- Settles O34: every effect of INIT keeps configuration and port, and only adds to the records. -/
theorem initFrame : Obligations.InitFrame := by
  intro s s' hn
  obtain ⟨htrace, hstatuses, hport, -⟩ := exec_growsInto hn
  exact ⟨(keptByInit_cfg s.cfg).exec rfl hn, (keptByInit_opPort s.opPort).exec rfl hn, htrace, hstatuses, hport⟩

end Sys2Proof.Machine
end

section
/-!
PROOFS, family 42_display_control.md: the three toggles (R130 to R133), one procedure over three masks. `exec_toggle`
says so of the operations; `toggle_written` gives the send a toggle is, and `exec_toggled` what every answer to it
leaves.
-/

namespace Sys2Proof.Machine

/-! ### The field computations (R22, R130) -/

section
variable {m flags : Byte}

theorem withField_and (b : OnOff) (k : Byte) :
    withField m b flags &&& k = withField (m &&& k) b (flags &&& k) := by
  cases b with
  | on => exact or_and flags m k
  | off =>
    ext i
    simp [withField]
    grind

/-- A field within the bits of DCF leaves DCF within its bits. -/
theorem withField_within {k : Byte} (hm : m &&& k = m) (hflags : flags &&& k = flags) (b : OnOff) :
    withField m b flags &&& k = withField m b flags := by
  rw [withField_and, hm, hflags]

/-- A field of no bit changes nothing. -/
@[simp] theorem withField_zero (b : OnOff) : withField 0x00#8 b flags = flags := by
  cases b with
  | on => exact BitVec.or_zero
  | off => exact BitVec.and_allOnes

/-- What a mask without the field's bits reads is as before. -/
theorem withField_and_of_disjoint {k : Byte} (h : m &&& k = 0x00#8) (b : OnOff) :
    withField m b flags &&& k = flags &&& k := by
  rw [withField_and, h, withField_zero]

/-- The other fields are preserved (R134). -/
theorem withField_and_not (m flags : Byte) (b : OnOff) : withField m b flags &&& ~~~m = flags &&& ~~~m :=
  withField_and_of_disjoint (by simp) b

@[simp] theorem withField_off_and : withField m .off flags &&& m = 0x00#8 := by
  simp [withField, BitVec.and_assoc]

theorem xor_withField_on : flags ^^^ withField m .on flags = m ^^^ (flags &&& m) := by
  ext i
  simp [withField]
  grind

theorem xor_withField_off : flags ^^^ withField m .off flags = flags &&& m := by
  ext i
  simp [withField]
  grind

/-- The field changes exactly when the requested state is not the one it has (R134). -/
theorem xor_withField (h : oneBit m = true) (b : OnOff) :
    flags ^^^ withField m b flags = if (flags &&& m ≠ 0x00#8 ↔ b = .on) then 0x00#8 else m := by
  have hne := oneBit_ne_zero h
  cases b with
  | on => rcases and_oneBit h flags with hf | hf <;> simp [xor_withField_on, hf, hne]
  | off => rcases and_oneBit h flags with hf | hf <;> simp [xor_withField_off, hf, hne]

end

/-! ### The masks of the three operations (R131, R132, R133) -/

section
variable {c : Config} {i : Instr} {m : Byte}

theorem toggleMask_oneBit (hw : c.wf = true) (hm : toggleMask c i = some m) : oneBit m = true := by
  have d := Config.flagFields hw
  cases i with
  | setDisplay b => cases hm; exact d.bit_a
  | setCursorDisplay b => cases hm; exact d.bit_b
  | setCursorBlink b => cases hm; exact d.bit_c
  | _ => cases hm

/-- Each of the masks is a part of DCF. -/
theorem toggleMask_and_dcfMask (hm : toggleMask c i = some m) : m &&& dcfMask c = m := by
  cases i with
  | setDisplay b | setCursorDisplay b | setCursorBlink b =>
    cases hm
    ext j
    simp +contextual [dcfMask]
  | _ => cases hm

/-- An operation with a mask has a state operand. -/
theorem toggleState_of_toggleMask (hm : toggleMask c i = some m) : ∃ b, toggleState i = some b := by
  cases i with
  | setDisplay b | setCursorDisplay b | setCursorBlink b => exact ⟨b, rfl⟩
  | _ => cases hm

theorem ne_init_of_toggleMask (hm : toggleMask c i = some m) : i ≠ .init := by
  rintro rfl
  cases hm

/-- Each of the three operations performs `toggle` with its mask and its state. -/
theorem exec_toggle {s : State} {b : OnOff} (hm : toggleMask s.cfg i = some m) (hb : toggleState i = some b) :
    exec i s = perform (toggle m b) s := by
  cases i with
  | setDisplay b | setCursorDisplay b | setCursorBlink b => cases hm; cases hb; rfl
  | _ => cases hm

end

/-! ### The procedure (R130) -/

section
variable {s s' : State} {m flags v : Byte} {b : OnOff}

/-- What is read of DCF lies within its fields (R22). -/
theorem readDcf_within (h : s.readDcf = some flags) : flags &&& dcfMask s.cfg = flags := by
  obtain ⟨d, -, rfl⟩ := Option.map_eq_some_iff.1 h
  rw [BitVec.and_assoc, BitVec.and_self]

theorem writeDcf_within (h : v &&& dcfMask s.cfg = v) : s.writeDcf v = { s with dcf := some v } := by
  rw [State.writeDcf, h]

theorem toggle_unwritten (h : s.readDcf = none) : toggle m b s = .raise .flagsUnwritten s := by
  simp [toggle, h]

/-- A toggle that finds DCF written is a send of the new flags, with those in DCF already. -/
theorem toggle_written (hm : m &&& dcfMask s.cfg = m) (h : s.readDcf = some flags) :
    toggle m b s = sendThenWait false (displayControl s.cfg (withField m b flags)) s.cfg.tToggle
      { s with dcf := some (withField m b flags) } := by
  have hnew := withField_within hm (readDcf_within h) b
  have hread : (s.writeDcf (withField m b flags)).readDcf = some (withField m b flags) := by simp [hnew]
  simp only [toggle, h]
  rw [sendFlags_written hread, writeDcf_within hnew]

/-- Settles O19: `toggle_unwritten`, and the two answers to the send `toggle_written` gives. -/
theorem toggleFollowsProcedure : Obligations.ToggleFollowsProcedure := by
  intro s i m b hw hm hb
  rw [exec_toggle hm hb, perform_wf hw]
  refine ⟨fun hd => by rw [toggle_unwritten hd]; rfl, ?_⟩
  rintro flags new f hd hnew rfl
  obtain rfl : new = withField m b flags := by cases b <;> exact hnew
  rw [toggle_written (toggleMask_and_dcfMask hm) hd]
  refine ⟨fun hok hwait => ?_, fun n hfail => ?_⟩
  · rw [sendThenWait_ok (s := { s with dcf := some (withField m b flags) }) hok hwait]
    rfl
  · rw [sendThenWait_fail (s := { s with dcf := some (withField m b flags) }) hfail]
    rfl

/-! ### What a toggle leaves, whatever the answer (R130, R134) -/

/-- `t` comes after a toggle of `s` that has written `new` to DCF and sent it. -/
structure State.Toggled (s : State) (new : Byte) (t : State) : Prop where
  cfg : t.cfg = s.cfg
  dcf : t.dcf = some new
  sent : s.trace ++ [command s.cfg (displayControl s.cfg new)] <+: t.trace

theorem State.Toggled.readDcf {new : Byte} (h : s.Toggled new s') (hnew : new &&& dcfMask s.cfg = new) :
    s'.readDcf = some new := by
  rw [State.readDcf, h.dcf, h.cfg, Option.map_some, hnew]

/-- Whatever is sent next, DCF and the command stay. -/
theorem keptBySends_toggled (s : State) (new : Byte) : KeptBySends (s.Toggled new) where
  tx _ _ _ _ ht := { ht with sent := ht.sent.trans (List.prefix_append _ _) }
  wait _ _ _ ht := { ht with sent := ht.sent.trans (List.prefix_append _ _) }
  report _ _ ht := { ht with }

theorem toggle_toggled (hm : m &&& dcfMask s.cfg = m) (h : s.readDcf = some flags) :
    (toggle m b s).Keeps (s.Toggled (withField m b flags)) := by
  rw [toggle_written hm h]
  have hsent : ∀ r, s.Toggled (withField m b flags)
      (State.afterTx { s with dcf := some (withField m b flags) }
        (frame8 s.cfg false (displayControl s.cfg (withField m b flags))) r) :=
    fun _ => ⟨rfl, rfl, List.prefix_refl _⟩
  exact Flow.Keeps.andThen (txOrRaise_holds (fun _ => hsent .ok) fun n _ => hsent (.fail n)) fun _ ht =>
    (keptBySends_toggled s _).waitMs _ ht

/-- A toggle operation that finds DCF written leaves the field set or cleared, and the new flags sent. -/
theorem exec_toggled {i : Instr} (hm : toggleMask s.cfg i = some m) (hb : toggleState i = some b)
    (hd : s.readDcf = some flags) (hn : exec i s = .next s') : s.Toggled (withField m b flags) s' :=
  (keptBySends_toggled s _).perform (toggle_toggled (toggleMask_and_dcfMask hm) hd) (exec_toggle hm hb ▸ hn)

theorem exec_next_wf {i : Instr} (hn : exec i s = .next s') : s.cfg.wf = true :=
  (perform_next (exec_eq_perform_pseudocode i s ▸ hn)).1

end

/-- Settles O21: the new flags are `withField` of the old. -/
theorem toggleChangesOneField : Obligations.ToggleChangesOneField := by
  intro s s' i m flags b hm hb hd hn
  have hbit := toggleMask_oneBit (exec_next_wf hn) hm
  exact ⟨hbit, _, (exec_toggled hm hb hd hn).dcf, withField_and_not m flags b, xor_withField hbit b⟩

/-! ### Scenario B (R135) -/

/-- Settles O22: the first command carries the flags with DISPLAY cleared, the second those with BLINK set; the two
fields share no bit. -/
theorem displayOffThenBlinkOn : Obligations.DisplayOffThenBlinkOn := by
  intro s s1 s2 flags hd hoff hon
  have fields := Config.flagFields (exec_next_wf hoff)
  have first := exec_toggled rfl rfl hd hoff
  have second := exec_toggled rfl rfl
    (first.readDcf (withField_within (dMask_and_dcfMask s.cfg) (readDcf_within hd) .off)) hon
  have hsent := second.sent
  rw [first.cfg] at hsent
  refine ⟨_, _, first.sent, hsent, withField_off_and, ?_, ?_⟩
  · rw [withField_and_of_disjoint fields.ca, withField_off_and]
  · rw [xor_withField fields.bit_c, withField_and_of_disjoint fields.ac]
    by_cases hblink : flags &&& s.cfg.bMask = 0x00#8 <;> simp [hblink]

/-! ### What the toggles leave unchanged (R131, R132, R133) -/

/-- Only INIT sets the ghost counter (R24). -/
theorem keptByToggles_initStep (k : Nat) : KeptByToggles fun s => s.initStep = k where
  tx _ _ _ _ hs := hs
  wait _ _ _ hs := hs
  report _ _ hs := hs
  writeDcf _ _ hs := hs

/-- Settles O33: of DCF what `exec_toggled` says, the rest as every effect of a toggle keeps it. -/
theorem toggleFrame : Obligations.ToggleFrame := by
  intro s s' i m hm hn
  obtain ⟨b, hb⟩ := toggleState_of_toggleMask hm
  obtain ⟨htrace, hstatuses, hport, -⟩ := exec_growsInto hn
  refine ⟨fun flags hd => ⟨withField m b flags, ?_, withField_and_not m flags b⟩,
    (keptByToggles_initStep s.initStep).exec (ne_init_of_toggleMask hm) rfl hn, (keptByInit_cfg s.cfg).exec rfl hn,
    (keptByInit_opPort s.opPort).exec rfl hn, htrace, hstatuses, hport⟩
  exact (exec_toggled hm hb hd hn).readDcf (withField_within (toggleMask_and_dcfMask hm) (readDcf_within hd) b)

end Sys2Proof.Machine
end

section
/-!
PROOFS, family 43_cursor_addressing.md: SETCURSOR (R140 to R143). `exec_setCursor` gives the whole next state once the
table entry of the row is known; the row enters it through `rowIndex` only, which is where the fall-back of R141 is.
-/

namespace Sys2Proof.Machine

/-! ### The row looked up (R42, R141) -/

section
variable {c : Config} {row : Byte}

theorem rowIndex_of_lt (h : row.toNat < c.nRows) : rowIndex c row = row.toNat := if_pos h

theorem rowIndex_of_le (h : c.nRows ≤ row.toNat) : rowIndex c row = 0 := if_neg (Nat.not_lt.2 h)

theorem rowIndex_zero (c : Config) : rowIndex c 0x00#8 = 0 := ite_self 0

/-- An admitted table has at least one row, so the row looked up is one of its rows. -/
theorem rowIndex_lt_nRows (h : c.wf = true) (row : Byte) : rowIndex c row < c.nRows := by
  obtain ⟨hpos, -, -⟩ := Config.rows h
  rcases Nat.lt_or_ge row.toNat c.nRows with hrow | hrow
  · rwa [rowIndex_of_lt hrow]
  · rwa [rowIndex_of_le hrow]

/-- In an admitted configuration the table read of SETCURSOR finds an entry (R42). -/
theorem memReadRowTab_rowIndex (h : c.wf = true) (row : Byte) :
    ∃ base, memReadRowTab c (rowIndex c row) = some base := by
  obtain ⟨-, -, hlen⟩ := Config.rows h
  exact ⟨_, List.getElem?_eq_getElem (hlen ▸ rowIndex_lt_nRows h row)⟩

end

/-! ### The address (R142, R143) -/

/-- The address is the sum modulo 256 (R142). -/
theorem ddramAddress_eq_ofNat (base col : Byte) :
    ddramAddress base col = BitVec.ofNat 8 ((base.toNat + col.toNat) % 256) :=
  BitVec.eq_of_toNat_eq (by simp [ddramAddress])

theorem ddramAddress_toNat {base col : Byte} (h : base.toNat + col.toNat < 256) :
    (ddramAddress base col).toNat = base.toNat + col.toNat :=
  BitVec.toNat_add_of_lt h

/-- The default table has an entry for each row below 4, none past 0x54 (R143). -/
theorem default_rowBase : ∀ row < 4, ∃ base, Config.default.rowBase[row]? = some base ∧ base.toNat ≤ 0x54 := by
  decide

/-! ### SETCURSOR as an operation (R140) -/

/-- An operation is what its pseudocode does in the state it runs in. -/
theorem perform_congr {op op' : State → Flow} {s : State} (h : op s = op' s) : perform op s = perform op' s := by
  rw [perform, perform, h]

section
variable {s : State} {row col : Byte}

/-- SETCURSOR is the send of its command byte, once the entry of the row is read. -/
theorem positionCursor_of_read {base : Byte} (h : memReadRowTab s.cfg (rowIndex s.cfg row) = some base) :
    positionCursor row col s = send8 false (setDdram s.cfg (ddramAddress base col)) s := by
  simp only [positionCursor, h]

/-- The whole next state: one full frame with RS = 0 and no settle delay (R140). -/
theorem exec_setCursor (hw : s.cfg.wf = true) {base : Byte}
    (hbase : memReadRowTab s.cfg (rowIndex s.cfg row) = some base) {r : TxReply} (h : s.replyAt 0 = some r)
    {f : List Byte} (hf : f = frame8 s.cfg false (setDdram s.cfg (ddramAddress base col))) :
    exec (.setCursor row col) s = .next (s.after [.tx f] (delivered f r) (statusOf r)) := by
  subst hf
  exact (perform_congr (positionCursor_of_read hbase)).trans (perform_send8 hw h false _)

/-- Two rows that look up the same entry behave alike, whatever the state. -/
theorem exec_setCursor_congr {row' : Byte} (h : rowIndex s.cfg row = rowIndex s.cfg row') :
    exec (.setCursor row col) s = exec (.setCursor row' col) s :=
  perform_congr (by simp only [positionCursor, h])

/-- A row outside the table behaves as row 0 (R141). -/
theorem exec_setCursor_of_nRows_le (h : s.cfg.nRows ≤ row.toNat) :
    exec (.setCursor row col) s = exec (.setCursor 0x00#8 col) s :=
  exec_setCursor_congr ((rowIndex_of_le h).trans (rowIndex_zero s.cfg).symm)

end

/-- Settles O16: `exec_setCursor` at the entry the table read finds. -/
theorem setCursorResult : Obligations.SetCursorResult := by
  intro s row col r hw h
  obtain ⟨base, hbase⟩ := memReadRowTab_rowIndex hw row
  refine ⟨base, hbase, fun f hf => exec_setCursor hw hbase h ?_⟩
  rw [hf, ← ddramAddress_eq_ofNat, setDdram]

/-- Settles O17: the outcome is row 0's, and the status of an `ok` answer is the one `exec_setCursor` gives. -/
theorem setCursorRowFallsBack : Obligations.SetCursorRowFallsBack := by
  intro s row col hrow
  refine ⟨exec_setCursor_of_nRows_le hrow, fun hw h => ?_⟩
  obtain ⟨base, hbase⟩ := memReadRowTab_rowIndex hw row
  exact ⟨_, exec_setCursor hw hbase h rfl, rfl⟩

/-- Settles O18: in range the row's own entry is read, and the sum of an entry and a column cannot carry; out of range
the table has four rows. -/
theorem setCursorInRange : Obligations.SetCursorInRange := by
  intro s row col r hc h
  have hw : s.cfg.wf = true := by rw [hc]; decide
  have hrows : s.cfg.nRows = 4 := by rw [hc]; rfl
  refine ⟨fun hrow hcol => ?_, fun hrow => exec_setCursor_of_nRows_le (hrows ▸ hrow)⟩
  obtain ⟨base, hbase, hle⟩ := default_rowBase row.toNat hrow
  have hread : memReadRowTab s.cfg (rowIndex s.cfg row) = some base := by
    rw [rowIndex_of_lt (hrows ▸ hrow), memReadRowTab, hc]
    exact hbase
  refine ⟨base, hbase, ddramAddress_toNat (by omega), by omega, fun f hf => exec_setCursor hw hread h ?_⟩
  rw [hf, setDdram, hc]
  rfl

end Sys2Proof.Machine
end

section
/-!
PROOFS, family 44_clear_string.md: CLEAR and WRITESTRING (R150, R152). The loop of WRITESTRING is run by two rules, each
an induction over the string: `sendChars_append_ok` takes a beginning whose answers are all `ok` off the string,
whatever `WS_ON_FAIL` is, and `sendChars_goOn` runs a whole string with `WS_ON_FAIL = continue`, whatever the answers.
-/

namespace Sys2Proof.Machine

/-! ### CLEAR (R150) -/

/-- Settles O27: a send and its settle delay, by the answer it gets (R161). -/
theorem clearResult : Obligations.ClearResult := by
  rintro s _ hw rfl
  have hexec : exec .clear s = (sendThenWait false s.cfg.cmdClear s.cfg.tClear s).finish := perform_wf hw
  refine ⟨fun hok hwait => ?_, fun n hfail => ?_⟩
  · rw [hexec, sendThenWait_ok hok hwait, Flow.finish_go, State.ran_report]
  · rw [hexec, sendThenWait_fail hfail, Flow.finish_raise, State.ran_report]

/-! ### WRITESTRING as an operation (R152) -/

theorem exec_writeString {s : State} (h : s.cfg.wf = true) (chars : List Byte) :
    exec (.writeString chars) s = (sendChars false chars s).finish :=
  perform_wf h

/-- How the loop's end is reported: `TransportFailure` exactly if a character has failed. -/
theorem endString_finish (failed : Bool) (s : State) :
    (endString failed s).finish = .next (s.report (if failed then .transportFailure else .ok)) := by
  cases failed <;> rfl

/-- Settles O28: `exec_writeString_allOk`, which O31 rests on too. -/
theorem writeStringCompletes : Obligations.WriteStringCompletes := by
  rintro s chars _ hw h rfl
  exact exec_writeString_allOk hw h

/-! ### A failed character with `WS_ON_FAIL = stop` (R152) -/

/-- A beginning of the string whose every `Tx` answered `ok` is sent, and the loop goes on with the rest. -/
theorem sendChars_append_ok (failed : Bool) {sent : List Byte} (rest : List Byte) {s : State}
    (h : s.AnswersOk sent.length) : sendChars failed (sent ++ rest) s = sendChars failed rest (s.afterString sent) := by
  induction sent generalizing s with
  | nil => rw [State.afterString_nil]; rfl
  | cons ch sent ih =>
    rw [List.cons_append, sendChars_ok (h 0 (by simp)), ih (h.afterTx _ _), State.afterString_afterTx]

theorem State.replyAt_afterString (s : State) (chars : List Byte) (k : Nat) :
    (s.afterString chars).replyAt k = s.replyAt (chars.length + k) := by
  have htx : (txEvents (dataEvents s.cfg chars)).length = chars.length := by
    induction chars with
    | nil => rfl
    | cons ch rest ih => simp [ih]
  rw [afterString, replyAt_ran, htx]

/-- The failed character's event is the last, and of the bytes only its own are cut short. -/
theorem sendChars_stop {s : State} {sent rest : List Byte} {ch : Byte} {n : Nat} (hstop : s.cfg.wsOnFail = .stop)
    (hok : s.AnswersOk sent.length) (hfail : s.replyAt sent.length = some (.fail n)) (failed : Bool) :
    sendChars failed (sent ++ ch :: rest) s = .raise .transportFailure
      (s.ran (dataEvents s.cfg (sent ++ [ch])) (reachedBytes (dataEvents s.cfg (sent ++ [ch])) n)) := by
  have hfail0 : (s.afterString sent).replyAt 0 = some (.fail n) := by rwa [State.replyAt_afterString]
  have hstop0 : (s.afterString sent).cfg.wsOnFail = .stop := hstop
  have hevents : dataEvents s.cfg (sent ++ [ch]) = dataEvents s.cfg sent ++ [.tx (frame8 s.cfg true ch)] := by
    simp [dataEvents]
  rw [sendChars_append_ok failed _ hok, sendChars_fail hfail0, if_pos hstop0, State.afterTx_eq_ran, State.afterString,
    State.ran_ran, hevents, reachedBytes_append (by simp)]
  rfl

/-- Settles O29: the string is cut at the character that failed. -/
theorem writeStringStopsOnFailure : Obligations.WriteStringStopsOnFailure := by
  rintro s chars k n _ hw hstop hk hok hfail rfl
  have hlen : (chars.take k).length = k := List.length_take_of_le hk.le
  have hchars : chars = chars.take k ++ chars[k] :: chars.drop (k + 1) := by
    rw [← List.drop_eq_getElem_cons hk, List.take_append_drop]
  rw [exec_writeString hw, congrArg (sendChars false · s) hchars,
    sendChars_stop hstop (by rwa [hlen]) (by rwa [hlen]) false, List.take_append_getElem hk]
  rfl

/-! ### Failed characters with `WS_ON_FAIL = continue` (R152) -/

/-- The coming `Tx` calls are answered `replies`, in order. -/
def State.AnswersAre (s : State) (replies : List TxReply) : Prop := ∀ k r, replies[k]? = some r → s.replyAt k = some r

section
variable {s : State} {r : TxReply} {replies : List TxReply}

theorem State.AnswersAre.head (h : s.AnswersAre (r :: replies)) : s.replyAt 0 = some r := h 0 r rfl

theorem State.AnswersAre.afterTx (h : s.AnswersAre (r :: replies)) (buf : List Byte) :
    (s.afterTx buf r).AnswersAre replies := fun k r' hr => by
  rw [State.replyAt_afterTx]
  exact h (k + 1) r' hr

/-- One character: the loop goes on whatever the answer, and remembers a failure. -/
theorem sendChars_goOn_cons (hgo : s.cfg.wsOnFail = .goOn) (h : s.replyAt 0 = some r) (failed : Bool) (ch : Byte)
    (rest : List Byte) :
    sendChars failed (ch :: rest) s =
      sendChars (failed || decide (r ≠ .ok)) rest (s.afterTx (frame8 s.cfg true ch) r) := by
  cases r with
  | ok => rw [sendChars_ok h]; simp
  | fail n => rw [sendChars_fail h]; simp [hgo]

end

/-- What reaches the expander of a string's frames, each delivered as far as its answer says (R48). -/
def stringBytes (c : Config) (chars : List Byte) (replies : List TxReply) : List Byte :=
  (List.zipWith (fun ch r => delivered (frame8 c true ch) r) chars replies).flatten

theorem sendChars_goOn {chars : List Byte} {replies : List TxReply} {s : State} (hgo : s.cfg.wsOnFail = .goOn)
    (hlen : replies.length = chars.length) (h : s.AnswersAre replies) (failed : Bool) :
    sendChars failed chars s = endString (failed || !decide (∀ r ∈ replies, r = .ok))
      (s.ran (dataEvents s.cfg chars) (stringBytes s.cfg chars replies)) := by
  induction chars generalizing replies s failed with
  | nil =>
    obtain rfl := List.length_eq_zero_iff.1 hlen
    simp [sendChars, stringBytes]
  | cons ch rest ih =>
    obtain ⟨r, replies, rfl⟩ := List.exists_cons_of_length_eq_add_one hlen
    have hfailed : (failed || !decide (∀ r' ∈ r :: replies, r' = .ok)) =
        (failed || decide (r ≠ .ok) || !decide (∀ r' ∈ replies, r' = .ok)) := by
      simp only [List.forall_mem_cons, Bool.decide_and, decide_not, Bool.not_and, Bool.or_assoc]
    rw [sendChars_goOn_cons hgo h.head, ih (s := s.afterTx _ r) hgo (Nat.succ.inj hlen) (h.afterTx _), hfailed,
      State.afterTx_eq_ran, State.ran_ran]
    rfl

/-- Settles O30: every character is attempted, and the failures are remembered in the loop's one bit. -/
theorem writeStringContinuesOnFailure : Obligations.WriteStringContinuesOnFailure := by
  intro s chars replies hw hgo hlen h
  rw [exec_writeString hw, sendChars_goOn hgo hlen h, endString_finish, State.ran_report]
  simp only [Bool.false_or, Bool.not_eq_true', decide_eq_false_iff_not, ite_not]
  rfl

end Sys2Proof.Machine
end

section
/-!
PROOFS, family 45_arithmetic_control_system.md: how far an operation gets (R156). One judgement, `Flow.Within`, bounds the
calls a piece of pseudocode makes, whatever the answers, and says that only one of these calls can stop it (R165). It is
proved once for each procedure and composed along the sequences; the bounds on events and the return of every operation
are both read off it.
-/

namespace Sys2Proof.Machine

/-! ### The judgement -/

/-- `t` comes after `s` by at most `n` `Tx` and `w` `Wait` events, the registers written as they may be. -/
def State.Within (s : State) (n w : Nat) (t : State) : Prop :=
  ∃ events reached regs, t = (s.ran events reached).withRegs regs ∧
    (txEvents events).length ≤ n ∧ (waitEvents events).length ≤ w

/-- `e` is the fault of a call that never returns: of a `Tx` the transport lists, or of one of the next `w` `Wait`s. -/
def State.Blocked (s : State) (w : Nat) (e : Fault) : Prop :=
  (e = .transportNeverReturns ∧ none ∈ s.transport) ∨
    (e = .delayNeverReturns ∧ ∃ k, s.delayHang = some k ∧ k < w)

/-- `f`, started in `s`, makes at most `n` `Tx` and `w` `Wait` calls, and only one that never returns stops it. -/
def Flow.Within (s : State) (n w : Nat) : Flow → Prop
  | .go t => s.Within n w t
  | .raise _ t => s.Within n w t
  | .stuck e => s.Blocked w e

section
variable {s t u : State} {n n' w w' : Nat}

theorem State.within_withRegs (s : State) (regs : Regs) (n w : Nat) : s.Within n w (s.withRegs regs) :=
  ⟨[], [], regs, by rw [State.ran_nil], by simp, by simp⟩

theorem State.within_self (s : State) (n w : Nat) : s.Within n w s := s.within_withRegs s.regs n w

theorem State.within_afterTx (s : State) (buf : List Byte) (r : TxReply) : s.Within 1 0 (s.afterTx buf r) :=
  ⟨[.tx buf], delivered buf r, s.regs, s.afterTx_eq_ran buf r, by simp, by simp⟩

theorem State.within_afterWait (s : State) (ms : Nat) : s.Within 0 1 (s.afterWait ms) :=
  ⟨[.wait ms], [], s.regs, s.afterWait_eq_ran ms, by simp, by simp⟩

theorem State.Within.trans (h : s.Within n w t) (h' : t.Within n' w' u) : s.Within (n + n') (w + w') u := by
  obtain ⟨events, reached, regs, rfl, hn, hw⟩ := h
  obtain ⟨events', reached', regs', rfl, hn', hw'⟩ := h'
  refine ⟨events ++ events', reached ++ reached', regs', by simp [State.ran_ran], ?_, ?_⟩
  · simpa using Nat.add_le_add hn hn'
  · simpa using Nat.add_le_add hw hw'

theorem State.Within.cfg_eq (h : s.Within n w t) : t.cfg = s.cfg := by
  obtain ⟨events, reached, regs, rfl, -, -⟩ := h
  rfl

/-- The answers left are the last of those there were. -/
theorem State.Within.mem_transport (h : s.Within n w t) {a : Option TxReply} (ha : a ∈ t.transport) :
    a ∈ s.transport := by
  obtain ⟨events, reached, regs, rfl, -, -⟩ := h
  exact List.mem_of_mem_drop ha

/-- A `Wait` that hangs was `w` further away at most. -/
theorem State.Within.hang (h : s.Within n w t) {k : Nat} (hk : t.delayHang = some k) :
    ∃ j, s.delayHang = some j ∧ j ≤ w + k := by
  obtain ⟨events, reached, regs, rfl, -, hw⟩ := h
  obtain ⟨j, hj, rfl⟩ := Option.map_eq_some_iff.1 hk
  exact ⟨j, hj, by omega⟩

/-- What blocks after some calls has blocked the machine from the start. -/
theorem State.Within.blocked (h : s.Within n w t) {e : Fault} (he : t.Blocked w' e) : s.Blocked (w + w') e := by
  rcases he with ⟨rfl, hmem⟩ | ⟨rfl, k, hk, hlt⟩
  · exact .inl ⟨rfl, h.mem_transport hmem⟩
  · obtain ⟨j, hj, hle⟩ := h.hang hk
    exact .inr ⟨rfl, j, hj, by omega⟩

theorem State.Blocked.mono (hw : w ≤ w') {e : Fault} (h : s.Blocked w e) : s.Blocked w' e :=
  h.imp_right fun ⟨he, k, hk, hlt⟩ => ⟨he, k, hk, by omega⟩

/-- The premise that every call returns is kept, whatever the answers were. -/
theorem State.Within.callsReturn (h : s.Within n w t) (hs : s.CallsReturn) : t.CallsReturn := by
  obtain ⟨hanswers, hdelay⟩ := hs
  refine ⟨fun hmem => hanswers (h.mem_transport hmem), Option.eq_none_iff_forall_ne_some.2 fun k hk => ?_⟩
  obtain ⟨j, hj, -⟩ := h.hang hk
  simp [hdelay] at hj

theorem State.CallsReturn.not_blocked (hs : s.CallsReturn) {e : Fault} : ¬ s.Blocked w e := by
  rintro (⟨-, hmem⟩ | ⟨-, k, hk, -⟩)
  · exact hs.1 hmem
  · simp [hs.2] at hk

/-- A piece started where others have led. -/
theorem State.Within.flow (h : s.Within n w t) {f : Flow} (hf : f.Within t n' w') : f.Within s (n + n') (w + w') := by
  cases f with
  | go u => exact h.trans hf
  | raise st u => exact h.trans hf
  | stuck e => exact h.blocked hf

/-- One piece after another makes the calls of both at most. -/
theorem Flow.Within.andThen {f : Flow} {g : State → Flow} (hf : f.Within s n w) (hg : ∀ t, (g t).Within t n' w') :
    (f.andThen g).Within s (n + n') (w + w') := by
  cases f with
  | go t => exact State.Within.flow hf (hg t)
  | raise st t => exact State.Within.trans hf (t.within_self n' w')
  | stuck e => exact State.Blocked.mono (Nat.le_add_right w w') hf

end

/-! ### The primitives and the procedures -/

/-- Only a listed answer says of a call that it never returns. -/
theorem State.none_mem_transport {s : State} {k : Nat} (h : s.replyAt k = none) : none ∈ s.transport := by
  unfold State.replyAt at h
  cases hk : s.transport[k]? with
  | none => simp [hk] at h
  | some a =>
    obtain rfl : a = none := by simpa [hk] using h
    exact List.mem_of_getElem? hk

theorem txOrRaise_within (buf : List Byte) (s : State) : (txOrRaise buf s).Within s 1 0 := by
  cases h : s.replyAt 0 with
  | none => rw [txOrRaise_never h]; exact .inl ⟨rfl, State.none_mem_transport h⟩
  | some r =>
    cases r with
    | ok => rw [txOrRaise_ok h]; exact s.within_afterTx buf .ok
    | fail n => rw [txOrRaise_fail h]; exact s.within_afterTx buf (.fail n)

theorem waitMs_within (ms : Nat) (s : State) : (waitMs ms s).Within s 0 1 := by
  unfold waitMs
  split
  · exact s.within_self 0 1
  · split
    · exact .inr ⟨rfl, 0, ‹_›, Nat.one_pos⟩
    · exact s.within_afterWait ms

theorem send8_within (rs : Bool) (v : Byte) (s : State) : (send8 rs v s).Within s 1 0 := txOrRaise_within _ s

theorem sendThenWait_within (rs : Bool) (v : Byte) (ms : Nat) (s : State) : (sendThenWait rs v ms s).Within s 1 1 :=
  (send8_within rs v s).andThen (waitMs_within ms)

theorem sendFlags_within (ms : Nat) (s : State) : (sendFlags ms s).Within s 1 1 := by
  unfold sendFlags
  cases s.readDcf with
  | none => exact s.within_self 1 1
  | some flags => exact sendThenWait_within false _ ms s

/-- Writing DCF makes no call. -/
theorem Flow.Within.of_writeDcf {f : Flow} {s : State} {v : Byte} {n w : Nat} (h : f.Within (s.writeDcf v) n w) :
    f.Within s n w := by
  simpa using (s.within_withRegs (s.writeDcf v).regs 0 0).flow h

theorem toggle_within (m : Byte) (b : OnOff) (s : State) : (toggle m b s).Within s 1 1 := by
  unfold toggle
  cases s.readDcf with
  | none => exact s.within_self 1 1
  | some flags => exact .of_writeDcf (sendFlags_within _ _)

/-- In an admitted configuration SETCURSOR's table read finds its entry (R42). -/
theorem positionCursor_within {s : State} (h : s.cfg.wf = true) (row col : Byte) :
    (positionCursor row col s).Within s 1 0 := by
  obtain ⟨base, hbase⟩ := memReadRowTab_rowIndex h row
  rw [positionCursor_of_read hbase]
  exact send8_within false _ s

theorem endString_within (failed : Bool) (s : State) (n w : Nat) : (endString failed s).Within s n w := by
  cases failed <;> exact s.within_self n w

/-- The loop of WRITESTRING makes one `Tx` call for each character at most (R152). -/
theorem sendChars_within (failed : Bool) (chars : List Byte) (s : State) :
    (sendChars failed chars s).Within s chars.length 0 := by
  induction chars generalizing failed s with
  | nil => exact endString_within failed s 0 0
  | cons ch rest ih =>
    rw [List.length_cons, Nat.add_comm]
    cases h : s.replyAt 0 with
    | none => rw [sendChars_never h]; exact .inl ⟨rfl, State.none_mem_transport h⟩
    | some r =>
      have hsent := s.within_afterTx (frame8 s.cfg true ch) r
      cases r with
      | ok => rw [sendChars_ok h]; exact hsent.flow (ih failed _)
      | fail k =>
        rw [sendChars_fail h]
        split
        · exact hsent.flow (endString_within true _ rest.length 0)
        · exact hsent.flow (ih true _)

/-! ### INIT -/

theorem completeStep_within (k : Nat) (s : State) : (completeStep k s).Within s 0 0 :=
  s.within_withRegs (s.dcf, k) 0 0

theorem sendThenMark_within (v : Byte) (ms k : Nat) (s : State) :
    ((sendThenWait false v ms s).andThen (completeStep k)).Within s 1 1 :=
  (sendThenWait_within false v ms s).andThen (completeStep_within k)

theorem flagsThenMark_within (v : Byte) (ms k : Nat) (s : State) :
    ((sendFlags ms (s.writeDcf v)).andThen (completeStep k)).Within s 1 1 :=
  (Flow.Within.of_writeDcf (sendFlags_within ms _)).andThen (completeStep_within k)

theorem initStep1_within (s : State) : (initStep1 s).Within s 0 1 :=
  (waitMs_within s.cfg.tPowerOn s).andThen (completeStep_within 1)

theorem initStep2_within (s : State) : (initStep2 s).Within s 3 3 :=
  (((sendThenWait_within false _ _ s).andThen (sendThenWait_within false _ _)).andThen
    (sendThenWait_within false _ _)).andThen (completeStep_within 2)

theorem initStep3_within (s : State) : (initStep3 s).Within s 1 1 :=
  ((txOrRaise_within _ s).andThen (waitMs_within _)).andThen (completeStep_within 3)

theorem initStep8_within (s : State) : (initStep8 s).Within s 1 1 := by
  unfold initStep8
  cases s.readDcf with
  | none => exact s.within_self 1 1
  | some flags => exact flagsThenMark_within _ _ 8 s

/-- INIT makes nine `Tx` and ten `Wait` calls at most (R110 to R118). -/
theorem initSequence_within (s : State) : (initSequence s).Within s 9 10 :=
  have hstart : (initStep1 (s.setInitStep 0)).Within s 0 1 :=
    (s.within_withRegs (s.dcf, 0) 0 0).flow (initStep1_within _)
  ((((((hstart.andThen initStep2_within).andThen initStep3_within).andThen
    fun t => sendThenMark_within _ _ 4 t).andThen fun t => flagsThenMark_within _ _ 5 t).andThen
    fun t => sendThenMark_within _ _ 6 t).andThen fun t => sendThenMark_within _ _ 7 t).andThen initStep8_within

/-! ### Every operation -/

/-- Each operation makes no more calls than R156 says. -/
theorem pseudocode_within {s : State} (h : s.cfg.wf = true) (i : Instr) :
    (pseudocode i s).Within s (maxTx i) (maxWait i) := by
  cases i with
  | init => exact initSequence_within s
  | clear => exact sendThenWait_within false _ _ s
  | setCursor row col => exact positionCursor_within h row col
  | sendData v => exact send8_within true v s
  | sendCmd v => exact send8_within false v s
  | setDisplay b | setCursorDisplay b | setCursorBlink b => exact toggle_within _ b s
  | writeString chars => exact sendChars_within false chars s

/-- Everything an operation of an admitted machine can do: return a status within its bounds, or be stopped by a call
that never returns. -/
theorem exec_cases {s : State} (h : s.cfg.wf = true) (i : Instr) :
    (∃ t st, exec i s = .next (t.report st) ∧ s.Within (maxTx i) (maxWait i) t) ∨
      ∃ e, exec i s = .fault e ∧ s.Blocked (maxWait i) e := by
  have hrun := pseudocode_within h i
  rw [exec_eq_perform_pseudocode, perform_wf h]
  cases hf : pseudocode i s with
  | go t => rw [hf] at hrun; exact .inl ⟨t, .ok, rfl, hrun⟩
  | raise st t => rw [hf] at hrun; exact .inl ⟨t, st, rfl, hrun⟩
  | stuck e => rw [hf] at hrun; exact .inr ⟨e, rfl, hrun⟩

/-- Settles O41: where every call returns none is blocked, and what is reached keeps the premise. -/
theorem operationsReturn : Obligations.OperationsReturn := by
  intro s i hw hreturn
  rcases exec_cases hw i with ⟨t, st, hn, ht⟩ | ⟨e, -, hblocked⟩
  · exact ⟨t.report st, hn, ht.cfg_eq, ht.callsReturn hreturn⟩
  · exact absurd hblocked hreturn.not_blocked

/-- Settles O38: the events are those of the state the operation reaches. -/
theorem eventBounds : Obligations.EventBounds := by
  intro s s' i hn
  rcases exec_cases (exec_next_wf hn) i with ⟨t, st, hn', events, reached, regs, rfl, htx, hwait⟩ | ⟨e, hfault, -⟩
  · obtain rfl := Host.Outcome.next.inj (hn.symm.trans hn')
    exact ⟨events, rfl, htx, hwait⟩
  · cases hn.symm.trans hfault

end Sys2Proof.Machine
end

section
/-!
PROOFS, family 60_exceptions.md: how operations end (R160 to R165, R172). Three facts carry them: which statuses a
piece of pseudocode can raise (`pseudocode_raises`), which calls an operation makes when all of them return
(`pseudocode_follows`), and where in these calls each `Tx` and each `Wait` of R156 stands (`exists_tx_call`,
`exists_wait_call`).
-/

namespace Sys2Proof.Machine

/-! ### A step that runs no operation (R162, R181) -/

/-- Settles O7: of the cases of a step, the one the decoder's answer leaves. -/
theorem stepIdles : Obligations.StepIdles := by
  intro s hw h
  rcases step_cases s with ⟨i, rest, hd, -⟩ | ⟨why, rest, hd, -⟩ | ⟨-, hst⟩
  · cases h.symm.trans hd
  · cases h.symm.trans hd
  · rw [hst, idle, if_pos hw]

/-- Illegal bytes are taken off the port and reported (R76, R162). -/
theorem step_of_illegalBytes {s : State} (hw : s.cfg.wf = true) (h : IllegalBytes s.opPort) :
    step s = .next ((s.consume (s.opPort.drop (examined s.opPort))).report .illegalOperation) := by
  obtain ⟨why, hwhy⟩ := decode_of_illegalBytes h
  rcases step_cases s with ⟨i, rest, hd, -⟩ | ⟨why', rest, hd, hst⟩ | ⟨hd, -⟩ <;> cases hwhy.symm.trans hd
  rw [hst, refuseEncoding, perform_wf hw, Flow.finish_raise]

/-! ### The failures of an operation (R161, R163) -/

/-- The failures an operation started in `s` can meet: a failed `Tx`, if it makes one, and for a toggle DCF found
unwritten. -/
def State.CanRaise (s : State) (i : Instr) (st : Status) : Prop :=
  (st = .transportFailure ∧ 0 < txCalls i) ∨ (st = .flagsUnwritten ∧ toggleState i ≠ none ∧ s.dcf = none)

/-- A flow that raises, if it does, a status of the given ones. -/
def Flow.Raises (allowed : Status → Prop) (f : Flow) : Prop := f.Holds (fun _ => True) fun st _ => allowed st

theorem Flow.Raises.andThen {allowed : Status → Prop} {f : Flow} {g : State → Flow} (hf : f.Raises allowed)
    (hg : ∀ t, (g t).Raises allowed) : (f.andThen g).Raises allowed :=
  Flow.Holds.andThen hf fun t _ => hg t

section
variable {allowed : Status → Prop} (h : allowed .transportFailure)
include h

theorem send8_raises (rs : Bool) (v : Byte) (s : State) : (send8 rs v s).Raises allowed :=
  txOrRaise_holds (fun _ => trivial) fun _ _ => h

theorem sendThenWait_raises (rs : Bool) (v : Byte) (ms : Nat) (s : State) : (sendThenWait rs v ms s).Raises allowed :=
  (send8_raises h rs v s).andThen fun _ => waitMs_holds (fun _ => trivial) fun _ => trivial

theorem positionCursor_raises (row col : Byte) (s : State) : (positionCursor row col s).Raises allowed := by
  unfold positionCursor
  cases memReadRowTab s.cfg (rowIndex s.cfg row) with
  | none => trivial
  | some base => exact send8_raises h false _ s

theorem endString_raises (failed : Bool) (s : State) : (endString failed s).Raises allowed := by
  cases failed
  · trivial
  · exact h

theorem sendChars_raises (failed : Bool) (chars : List Byte) (s : State) :
    (sendChars failed chars s).Raises allowed := by
  induction chars generalizing failed s with
  | nil => exact endString_raises h failed s
  | cons ch rest ih =>
    cases hr : s.replyAt 0 with
    | none => rw [sendChars_never hr]; trivial
    | some r =>
      cases r with
      | ok => rw [sendChars_ok hr]; exact ih failed _
      | fail n =>
        rw [sendChars_fail hr]
        split
        · exact endString_raises h true _
        · exact ih true _

theorem initSequence_raises (s : State) : (initSequence s).Raises allowed := by
  refine (initSequence_holds s).mono (fun _ _ => trivial) ?_
  rintro _ t ⟨rfl, -⟩
  exact h

end

theorem readDcf_eq_none_iff {s : State} : s.readDcf = none ↔ s.dcf = none := Option.map_eq_none_iff

/-- A toggle raises `FlagsUnwritten` only if it finds DCF unwritten; else its one failure is that of its send. -/
theorem toggle_raises {allowed : Status → Prop} (htx : allowed .transportFailure) {s : State}
    (hflags : s.dcf = none → allowed .flagsUnwritten) (m : Byte) (b : OnOff) : (toggle m b s).Raises allowed := by
  cases hd : s.readDcf with
  | none => rw [toggle_unwritten hd]; exact hflags (readDcf_eq_none_iff.1 hd)
  | some flags =>
    simp only [toggle, hd]
    rw [sendFlags_written (State.readDcf_writeDcf s _)]
    exact sendThenWait_raises htx false _ _ _

theorem pseudocode_raises (i : Instr) (s : State) : (pseudocode i s).Raises (s.CanRaise i) := by
  have htx : 0 < txCalls i → s.CanRaise i .transportFailure := fun hi => .inl ⟨rfl, hi⟩
  have hflags : toggleState i ≠ none → s.dcf = none → s.CanRaise i .flagsUnwritten := fun hi hd => .inr ⟨rfl, hi, hd⟩
  cases i with
  | init => exact initSequence_raises (htx (by decide)) s
  | clear => exact sendThenWait_raises (htx Nat.one_pos) false _ _ s
  | setCursor row col => exact positionCursor_raises (htx Nat.one_pos) row col s
  | sendData v => exact send8_raises (htx Nat.one_pos) true v s
  | sendCmd v => exact send8_raises (htx Nat.one_pos) false v s
  | setDisplay b | setCursorDisplay b | setCursorBlink b =>
    exact toggle_raises (htx Nat.one_pos) (hflags (by simp [toggleState])) _ b
  | writeString chars =>
    cases chars with
    | nil => trivial
    | cons ch rest => exact sendChars_raises (htx (Nat.succ_pos _)) false _ s

/-! ### The status of an operation (R160, R172) -/

/-- What an operation does before its end returns no status. -/
theorem State.Within.report_statuses {s t : State} {n w : Nat} (h : s.Within n w t) (st : Status) :
    (t.report st).statuses = s.statuses ++ [st] := by
  obtain ⟨events, reached, regs, rfl, -, -⟩ := h
  rfl

/-- An operation that returns adds one status: `Ok`, or a failure its pseudocode can meet. -/
theorem exec_status {s s' : State} {i : Instr} (hn : exec i s = .next s') :
    ∃ st, s'.statuses = s.statuses ++ [st] ∧ (st = .ok ∨ s.CanRaise i st) := by
  have hwithin := pseudocode_within (exec_next_wf hn) i
  have hraises := pseudocode_raises i s
  obtain ⟨-, ⟨t, ht, rfl⟩ | ⟨st, t, ht, rfl⟩⟩ := perform_next (exec_eq_perform_pseudocode i s ▸ hn)
  · rw [ht] at hwithin
    exact ⟨.ok, State.Within.report_statuses hwithin .ok, .inl rfl⟩
  · rw [ht] at hwithin hraises
    exact ⟨st, State.Within.report_statuses hwithin st, .inr hraises⟩

/-- The same of a status that is known. -/
theorem exec_status_eq {s s' : State} {i : Instr} {st : Status} (hn : exec i s = .next s')
    (hst : s'.statuses = s.statuses ++ [st]) : st = .ok ∨ s.CanRaise i st := by
  obtain ⟨st', hst', hcan⟩ := exec_status hn
  rw [hst, List.append_cancel_left_eq, List.singleton_inj] at hst'
  exact hst' ▸ hcan

/-- R172's table: `Ok` always, `TransportFailure` where there is a `Tx`, `FlagsUnwritten` for the toggles. -/
theorem mayEndWith_iff (i : Instr) (st : Status) :
    mayEndWith i st = true ↔
      st = .ok ∨ (st = .transportFailure ∧ 0 < txCalls i) ∨ (st = .flagsUnwritten ∧ toggleState i ≠ none) := by
  cases st with
  | ok => cases i <;> simp [mayEndWith]
  | transportFailure => cases i <;> simp [mayEndWith, txCalls, List.length_pos_iff]
  | illegalOperation => cases i <;> simp [mayEndWith]
  | flagsUnwritten => cases i <;> simp [mayEndWith, toggleState]

/-- Settles O8: illegal bytes are all the decoder refuses, an idle step returns no status, and `IllegalOperation` is no
failure of pseudocode. -/
theorem illegalOperationIsRefused : Obligations.IllegalOperationIsRefused := by
  have hexec : ∀ (i : Instr) (s s' : State), exec i s = .next s' →
      s'.statuses ≠ s.statuses ++ [.illegalOperation] := by
    intro i s s' hn hst
    simpa [State.CanRaise] using exec_status_eq hn hst
  refine ⟨rfl, fun s => step_of_illegalBytes, fun s s' hn hst => ?_, hexec⟩
  rcases step_cases s with ⟨i, rest, -, hstep⟩ | ⟨why, rest, hd, -⟩ | ⟨-, hstep⟩
  · exact absurd hst (hexec i (s.consume rest) s' (hstep.symm.trans hn))
  · exact illegalBytes_of_decode hd
  · rw [hstep, idle] at hn
    split at hn
    · cases hn
      simp at hst
    · cases hn

/-! ### How long DCF is unwritten (R163) -/

/-- The registers of an INIT that found `d` in DCF show it unwritten exactly if it was and step 4 has not completed. So
it is wherever INIT can end (R119), but not between the mark of step 4 and the write of step 5. -/
def UnwrittenEarly (d : Option Byte) (r : Regs) : Prop := r.1 = none ↔ d = none ∧ r.2 < 4

theorem unwrittenEarly_of_lt (d : Option Byte) {k : Nat} (hk : k < 4) : UnwrittenEarly d (d, k) := by
  simp [UnwrittenEarly, hk]

theorem unwrittenEarly_written (d : Option Byte) (v : Byte) {k : Nat} (hk : 4 ≤ k) : UnwrittenEarly d (some v, k) := by
  simp [UnwrittenEarly, hk]

/-- Frames sent one after the other leave the registers alone, a failed one included. -/
theorem sendAll_keeps_regs (frames : List (List Byte × Nat)) {r : Regs} {t : State} (h : t.regs = r) :
    (sendAll frames t).Keeps fun u => u.regs = r := by
  induction frames generalizing t with
  | nil => exact h
  | cons f rest ih =>
    have hsend : (txOrRaise f.1 t).Keeps fun u => u.regs = r := txOrRaise_holds (fun _ => h) fun _ _ => h
    exact (hsend.andThen fun u hu => waitMs_holds (fun _ => hu) fun _ => hu).andThen fun u hu => ih hu

/-- A step of INIT fails, if it does, with the registers it began with, and else sets its mark. -/
theorem sendMark_holds_regs {P : Regs → Prop} {d : Option Byte} {k : Nat} {t : State} (h : t.regs = (d, k))
    (hP : P (d, k)) (frames : List (List Byte × Nat)) (k' : Nat) :
    (sendMark frames k' t).Holds (fun u => u.regs = (d, k')) (fun _ u => P u.regs) := by
  have hsend : (sendAll frames t).Holds (fun u => u.regs = (d, k)) (fun _ u => P u.regs) :=
    (sendAll_keeps_regs frames h).mono (fun _ hu => hu) fun _ _ hu => by rw [hu]; exact hP
  exact hsend.andThen fun u hu => congrArg (fun r : Regs => (r.1, k')) hu

/-- Wherever INIT ends, step 4 has completed exactly if step 5 has written DCF. -/
theorem initSequence_unwrittenEarly (s : State) :
    (initSequence s).Keeps fun u => UnwrittenEarly s.dcf u.regs := by
  have early {k : Nat} : k < 4 → UnwrittenEarly s.dcf (s.dcf, k) := unwrittenEarly_of_lt s.dcf
  have written {v : Byte} {k : Nat} : 4 ≤ k → UnwrittenEarly s.dcf (some v, k) := unwrittenEarly_written s.dcf v
  have h1 : (initStep1 (s.setInitStep 0)).Holds (fun u => u.regs = (s.dcf, 1))
      (fun _ u => UnwrittenEarly s.dcf u.regs) :=
    Flow.Holds.andThen (P := fun u => u.dcf = s.dcf) (waitMs_holds (fun _ => rfl) fun _ => rfl)
      fun u hu => congrArg (·, 1) hu
  have h4 := ((h1.andThen fun t ht => initStep2_eq t ▸ sendMark_holds_regs ht (early (by decide)) _ 2).andThen
    fun t ht => initStep3_eq t ▸ sendMark_holds_regs ht (early (by decide)) _ 3).andThen
    fun t ht => initStep4_eq t ▸ sendMark_holds_regs ht (early (by decide)) _ 4
  have h5 := h4.andThen fun t ht => initStep5_eq t ▸ sendMark_holds_regs (d := some 0x00#8) (k := 4)
    (by simp [writeDcf_regs, (Prod.mk.inj ht).2]) (written (by decide)) _ 5
  have h7 := (h5.andThen fun t ht => initStep6_eq t ▸ sendMark_holds_regs ht (written (by decide)) _ 6).andThen
    fun t ht => initStep7_eq t ▸ sendMark_holds_regs ht (written (by decide)) _ 7
  refine h7.andThen fun t ht => ?_
  obtain ⟨hd, hk⟩ := Prod.mk.inj ht
  rw [initStep8_eq (by simp [State.readDcf, hd])]
  refine (sendMark_holds_regs (d := some t.cfg.dMask) (k := 7) ?_ (written (by decide)) _ 8).mono
    (fun u hu => ?_) fun _ _ hu => hu
  · simp [writeDcf_regs, dMask_and_dcfMask, hk]
  · rw [hu]
    exact written (by decide)

theorem exec_toggle_unwritten {s : State} {i : Instr} {m : Byte} (hw : s.cfg.wf = true)
    (hm : toggleMask s.cfg i = some m) (hd : s.dcf = none) : exec i s = .next (s.report .flagsUnwritten) := by
  obtain ⟨b, hb⟩ := toggleState_of_toggleMask hm
  rw [exec_toggle hm hb, perform_wf hw, toggle_unwritten (readDcf_eq_none_iff.2 hd), Flow.finish_raise]

theorem toggleMask_of_toggleState {i : Instr} (c : Config) (h : toggleState i ≠ none) :
    ∃ m, toggleMask c i = some m := by
  cases i with
  | setDisplay b | setCursorDisplay b | setCursorBlink b => exact ⟨_, rfl⟩
  | _ => exact absurd rfl h

/-- Every operation but INIT leaves DCF unwritten or written, as it finds it: a toggle that finds it unwritten stops. -/
theorem exec_dcf_eq_none_iff {s s' : State} {i : Instr} (hn : exec i s = .next s') (hi : i ≠ .init) :
    s'.dcf = none ↔ s.dcf = none := by
  cases hm : toggleMask s.cfg i with
  | none => rw [((keptBySends_sameRegisters s).exec hm hi ⟨rfl, rfl, rfl, rfl⟩ hn).dcf]
  | some m =>
    obtain ⟨b, hb⟩ := toggleState_of_toggleMask hm
    cases hd : s.readDcf with
    | none =>
      have hnone := readDcf_eq_none_iff.1 hd
      obtain rfl := Host.Outcome.next.inj (hn.symm.trans (exec_toggle_unwritten (exec_next_wf hn) hm hnone))
      rfl
    | some flags =>
      have hwritten : s.dcf ≠ none := fun hnone => by simp [readDcf_eq_none_iff.2 hnone] at hd
      simp [(exec_toggled hm hb hd hn).dcf, hwritten]

/-- Settles O20: `FlagsUnwritten` is raised by a toggle that finds DCF unwritten, and DCF is written by step 5 of INIT
first. -/
theorem toggleNeedsWrittenFlags : Obligations.ToggleNeedsWrittenFlags := by
  refine ⟨rfl, fun s i m => exec_toggle_unwritten, fun s s' i hn hst => ?_, fun s s' i => exec_dcf_eq_none_iff,
    fun s s' hn => ?_⟩
  · rcases exec_status_eq hn hst with h | ⟨h, -⟩ | ⟨-, htoggle, hd⟩
    · cases h
    · cases h
    · exact ⟨hd, toggleMask_of_toggleState s.cfg htoggle⟩
  · exact perform_holds (R := fun t => UnwrittenEarly s.dcf t.regs) hn (initSequence_unwrittenEarly s)

/-! ### The calls of every operation (R156) -/

/-- The calls an operation makes when every one returns, the `Tx` calls with `ok`. -/
def callsOf (c : Config) : Instr → List Call
  | .init => waitCall c.tPowerOn ++ sendCalls [c.tInit1, c.tInit2, c.tInit3, c.tInit4Bit, c.tFuncSet, c.tInitDoff,
      c.tInitClear, c.tEntry, c.tInitDon]
  | .clear => .tx :: waitCall c.tClear
  | .setCursor _ _ | .sendData _ | .sendCmd _ => [.tx]
  | .setDisplay _ | .setCursorDisplay _ | .setCursorBlink _ => .tx :: waitCall c.tToggle
  | .writeString chars => List.replicate chars.length .tx

/-- An operation of an admitted machine, DCF written for a toggle, makes these calls. -/
theorem pseudocode_follows {s : State} (hw : s.cfg.wf = true) {i : Instr} (hd : toggleState i ≠ none → s.dcf ≠ none) :
    (pseudocode i s).Follows s (callsOf s.cfg i) fun _ => True := by
  cases i with
  | init => exact (initSequence_follows s).mono fun _ _ => trivial
  | clear => exact (sendThenWait_follows false _ _ s).mono fun _ _ => trivial
  | setCursor row col =>
    obtain ⟨base, hbase⟩ := memReadRowTab_rowIndex hw row
    simp only [pseudocode, positionCursor_of_read hbase]
    exact (send8_follows false _ s).mono fun _ _ => trivial
  | sendData v => exact (send8_follows true v s).mono fun _ _ => trivial
  | sendCmd v => exact (send8_follows false v s).mono fun _ _ => trivial
  | setDisplay b | setCursorDisplay b | setCursorBlink b =>
    exact (toggle_follows _ b (hd (by simp [toggleState]))).mono fun _ _ => trivial
  | writeString chars => exact sendChars_follows chars s

@[simp] theorem txsIn_sendCalls (delays : List Nat) : txsIn (sendCalls delays) = delays.length := by
  induction delays with
  | nil => rfl
  | cons ms rest ih => simp [ih]

theorem txsIn_callsOf (c : Config) (i : Instr) : txsIn (callsOf c i) = txCalls i := by
  cases i with
  | writeString chars => exact List.count_replicate_self
  | _ => simp [callsOf, txCalls]

/-! ### Where each call stands (R156) -/

/-- How many `Tx` calls come before each `Wait` call of a list. -/
def waitSpots : List Call → List Nat
  | [] => []
  | .tx :: rest => (waitSpots rest).map (· + 1)
  | .wait :: rest => 0 :: waitSpots rest

@[simp] theorem waitSpots_nil : waitSpots [] = [] := rfl
@[simp] theorem waitSpots_tx (rest : List Call) : waitSpots (.tx :: rest) = (waitSpots rest).map (· + 1) := rfl
@[simp] theorem waitSpots_wait (rest : List Call) : waitSpots (.wait :: rest) = 0 :: waitSpots rest := rfl

@[simp] theorem waitSpots_append (a b : List Call) :
    waitSpots (a ++ b) = waitSpots a ++ (waitSpots b).map (· + txsIn a) := by
  induction a with
  | nil => simp
  | cons call a ih => cases call <;> simp [ih, Function.comp_def, Nat.add_assoc]

theorem waitSpots_replicate_tx (n : Nat) : waitSpots (List.replicate n .tx) = [] := by
  induction n with
  | zero => rfl
  | succ n ih => simp [List.replicate_succ, ih]

/-- The `Wait`s of a plan that are calls, first one first. -/
theorem map_filter_plan_cons (k ms : Nat) (plan : List (Nat × Nat)) :
    (((k, ms) :: plan).filter (·.2 ≠ 0)).map (·.1) =
      (waitSpots (waitCall ms)).map (· + k) ++ (plan.filter (·.2 ≠ 0)).map (·.1) := by
  by_cases hms : ms = 0 <;> simp [waitCall, hms]

/-- The `Wait` calls of an operation stand where R156's plan says. -/
theorem waitSpots_callsOf (c : Config) (i : Instr) : waitSpots (callsOf c i) = waitCalls c i := by
  cases i with
  | writeString chars => exact waitSpots_replicate_tx chars.length
  | _ =>
    simp only [waitCalls, waitPlan, map_filter_plan_cons]
    simp [callsOf, Function.comp_def]

/-- The `n`-th `Wait` call of a list, from 0. -/
theorem exists_wait_call {calls : List Call} {n k : Nat} (h : (waitSpots calls)[n]? = some k) :
    ∃ before after, calls = before ++ .wait :: after ∧ txsIn before = k ∧ waitsIn before = n := by
  induction calls generalizing n k with
  | nil => simp at h
  | cons call rest ih =>
    cases call with
    | tx =>
      rw [waitSpots_tx, List.getElem?_map, Option.map_eq_some_iff] at h
      obtain ⟨j, hj, rfl⟩ := h
      obtain ⟨before, after, rfl, rfl, rfl⟩ := ih hj
      exact ⟨.tx :: before, after, rfl, by simp, by simp⟩
    | wait =>
      cases n with
      | zero =>
        obtain rfl : 0 = k := by simpa using h
        exact ⟨[], rest, rfl, rfl, rfl⟩
      | succ n =>
        obtain ⟨before, after, rfl, rfl, rfl⟩ := ih (by simpa using h)
        exact ⟨.wait :: before, after, rfl, by simp, by simp⟩

/-- The `k`-th `Tx` call of a list, from 0: the `Wait` calls before it are those with at most `k` `Tx` calls before. -/
theorem exists_tx_call {calls : List Call} {k : Nat} (h : k < txsIn calls) :
    ∃ before after, calls = before ++ .tx :: after ∧ txsIn before = k ∧
      waitsIn before = ((waitSpots calls).filter (· ≤ k)).length := by
  induction calls generalizing k with
  | nil => simp at h
  | cons call rest ih =>
    cases call with
    | tx =>
      cases k with
      | zero => exact ⟨[], rest, rfl, rfl, by simp [List.filter_map, Function.comp_def]⟩
      | succ k =>
        obtain ⟨before, after, hrest, htx, hwait⟩ := ih (by simpa using h)
        refine ⟨.tx :: before, after, by rw [hrest]; rfl, by simp [htx], ?_⟩
        simp [hwait, List.filter_map, Function.comp_def]
    | wait =>
      obtain ⟨before, after, hrest, htx, hwait⟩ := ih (by simpa using h)
      exact ⟨.wait :: before, after, by rw [hrest]; rfl, by simp [htx], by simp [hwait]⟩

/-! ### Calls that never return (R165) -/

/-- The call of an operation that is reached and never returns stops it. -/
theorem exec_stuck {s : State} (hw : s.cfg.wf = true) {i : Instr} (hd : toggleState i ≠ none → s.dcf ≠ none)
    {before after : List Call} {call : Call} (hcalls : callsOf s.cfg i = before ++ call :: after)
    (hreturn : s.Returns before) (hhang : s.Hangs before call) : exec i s = .fault call.fault := by
  have hstuck := (pseudocode_follows hw hd).sticks before call after hcalls hreturn hhang
  rw [exec_eq_perform_pseudocode, perform_wf hw, hstuck, Flow.finish_stuck]

theorem exec_fault_wf {s : State} {i : Instr} {e : Fault} (h : exec i s = .fault e) : s.cfg.wf = true := by
  by_contra hw
  rw [exec_eq_perform_pseudocode, perform_not_wf (Bool.eq_false_iff.2 hw)] at h
  cases h

/-- With `WS_ON_FAIL = continue` a character's `Tx` is reached whatever the answers before it. -/
theorem sendChars_goOn_never {chars : List Byte} {k : Nat} {s : State} (hgo : s.cfg.wsOnFail = .goOn)
    (hk : k < chars.length) (hanswered : ∀ j, j < k → s.replyAt j ≠ none) (hhang : s.replyAt k = none) (failed : Bool) :
    sendChars failed chars s = .stuck .transportNeverReturns := by
  induction chars generalizing k s failed with
  | nil => simp at hk
  | cons ch rest ih =>
    cases k with
    | zero => exact sendChars_never hhang
    | succ k =>
      obtain ⟨r, hr⟩ := Option.ne_none_iff_exists'.1 (hanswered 0 k.succ_pos)
      rw [sendChars_goOn_cons hgo hr]
      refine ih (s := s.afterTx _ r) hgo (Nat.lt_of_succ_lt_succ hk) (fun j hj => ?_) ?_ _
      · rw [State.replyAt_afterTx]
        exact hanswered (j + 1) (Nat.succ_lt_succ hj)
      · rwa [State.replyAt_afterTx]

/-- Settles O40: `exec_cases` names what can stop an operation; conversely each `Tx` and each `Wait` is one of the calls
the operation makes, and with `WS_ON_FAIL = continue` failed characters do not keep the loop from it. -/
theorem onlyBlockedCallsStop : Obligations.OnlyBlockedCallsStop := by
  refine ⟨fun s i f hf => ?_, fun s i k hw hd hk hok hwaits hhang => ?_, fun s chars k hw hgo hk hanswered hhang => ?_,
    fun s i n k hw hd hn hok hhang => ?_⟩
  · rcases exec_cases (exec_fault_wf hf) i with ⟨t, st, hn, -⟩ | ⟨e, he, hblocked⟩
    · cases hf.symm.trans hn
    · obtain rfl := Host.Outcome.fault.inj (hf.symm.trans he)
      exact hblocked
  · rw [← txsIn_callsOf s.cfg i] at hk
    obtain ⟨before, after, hcalls, rfl, hbefore⟩ := exists_tx_call hk
    rw [waitSpots_callsOf] at hbefore
    exact exec_stuck hw hd hcalls ⟨hok, hbefore ▸ hwaits⟩ hhang
  · rw [exec_writeString hw, sendChars_goOn_never hgo hk hanswered hhang, Flow.finish_stuck]
  · rw [← waitSpots_callsOf] at hn
    obtain ⟨before, after, hcalls, rfl, rfl⟩ := exists_wait_call hn
    exact exec_stuck hw hd hcalls ⟨hok, fun j hj => Nat.le_of_eq (Option.some.inj (hhang.symm.trans hj))⟩ hhang

/-! ### Each status of the table occurs (R172) -/

/-- An operation whose calls all return ends with `Ok`. -/
theorem exec_returns_ok {s : State} (hw : s.cfg.wf = true) {i : Instr} (hd : toggleState i ≠ none → s.dcf ≠ none)
    (hreturn : s.Returns (callsOf s.cfg i)) : ∃ s', exec i s = .next s' ∧ s'.statuses = s.statuses ++ [.ok] := by
  obtain ⟨t, ht, -, -⟩ := (pseudocode_follows hw hd).goes hreturn
  have hwithin := pseudocode_within hw i
  rw [ht] at hwithin
  exact ⟨t.report .ok, by rw [exec_eq_perform_pseudocode, perform_wf hw, ht, Flow.finish_go],
    State.Within.report_statuses hwithin .ok⟩

/-- An operation whose first `Tx` fails ends with `TransportFailure`, WRITESTRING with `WS_ON_FAIL = stop` at once. -/
theorem exec_first_fails {s : State} (hw : s.cfg.wf = true) {i : Instr} (hd : toggleState i ≠ none → s.dcf ≠ none)
    (hstop : s.cfg.wsOnFail = .stop) (hi : 0 < txCalls i) {n : Nat} (hfail : s.replyAt 0 = some (.fail n))
    (hdelay : s.delayHang = none) :
    ∃ s', exec i s = .next s' ∧ s'.statuses = s.statuses ++ [.transportFailure] := by
  have htoggle : ∀ m b, toggleMask s.cfg i = some m → toggleState i = some b →
      ∃ s', exec i s = .next s' ∧ s'.statuses = s.statuses ++ [.transportFailure] := by
    intro m b hm hb
    obtain ⟨flags, hflags⟩ := Option.ne_none_iff_exists'.1 (mt readDcf_eq_none_iff.1 (hd (by simp [hb])))
    exact ⟨_, ((toggleFollowsProcedure s i m b hw hm hb).2 flags _ _ hflags rfl rfl).2 n hfail, rfl⟩
  have hnone : s.AnswersOk 0 := fun k hk => absurd hk k.not_lt_zero
  cases i with
  | init =>
    exact ⟨_, initAborts s 0 n _ hw (by omega) rfl hnone hfail (fun k hk => by simp [hdelay] at hk), rfl⟩
  | clear => exact ⟨_, (clearResult s _ hw rfl).2 n hfail, rfl⟩
  | setCursor row col =>
    obtain ⟨base, -, hexec⟩ := setCursorResult s row col _ hw hfail
    exact ⟨_, hexec _ rfl, rfl⟩
  | sendData v => exact ⟨_, sendDataResult s v _ hw hfail, rfl⟩
  | sendCmd v => exact ⟨_, sendCmdResult s v _ hw hfail, rfl⟩
  | setDisplay b | setCursorDisplay b | setCursorBlink b => exact htoggle _ b rfl rfl
  | writeString chars =>
    exact ⟨_, writeStringStopsOnFailure s chars 0 n _ hw hstop hi hnone hfail rfl, rfl⟩

/-- The reset machine of the default configuration with `WS_ON_FAIL = stop`, but with DCF written, all off, and these
answers to come. -/
def State.prepared (answers : List (Option TxReply)) : State :=
  { (State.resetWith { Config.default with wsOnFail := .stop }).writeDcf 0x00#8 with transport := answers }

theorem State.prepared_inv (answers : List (Option TxReply)) : (State.prepared answers).Inv :=
  { (resetWith_inv (c := { Config.default with wsOnFail := .stop }) (by decide)).writeDcf 0x00#8 with }

/-- Settles O37: `Ok` and the failures of the pseudocode are the table's statuses; the answers `ok` bring the first, a
failed first `Tx` the second, and unwritten flags the third. -/
theorem statusTable : Obligations.StatusTable := by
  refine ⟨fun s s' i hn => ?_, fun i st hst => ?_⟩
  · obtain ⟨st, hst, hcan⟩ := exec_status hn
    refine ⟨st, hst, (mayEndWith_iff i st).2 (hcan.imp_right ?_)⟩
    exact Or.imp_right fun ⟨h, htoggle, _⟩ => ⟨h, htoggle⟩
  · have hwritten : ∀ answers, toggleState i ≠ none → (State.prepared answers).dcf ≠ none := fun _ _ => nofun
    rcases (mayEndWith_iff i st).1 hst with rfl | ⟨rfl, hi⟩ | ⟨rfl, htoggle⟩
    · have hinv := State.prepared_inv (List.replicate (txCalls i) (some .ok))
      refine ⟨_, (exec_returns_ok hinv.cfg_wf (hwritten _) ⟨fun k hk => ?_, fun k hk => nomatch hk⟩).imp
        fun s' h => ⟨hinv, h⟩⟩
      rw [txsIn_callsOf] at hk
      simp [State.prepared, State.replyAt, hk]
    · have hinv := State.prepared_inv [some (.fail 0)]
      exact ⟨_, (exec_first_fails hinv.cfg_wf (hwritten _) rfl hi rfl rfl).imp fun s' h => ⟨hinv, h⟩⟩
    · have hinv := resetWith_inv (c := Config.default) (by decide)
      obtain ⟨m, hm⟩ := toggleMask_of_toggleState Config.default htoggle
      exact ⟨_, _, hinv, exec_toggle_unwritten hinv.cfg_wf hm rfl, rfl⟩

end Sys2Proof.Machine
end
